-- ==== Sys2Proof/Word.lean ====
section
/-! DEFINITION. The word types of the machine: the widths of spec/00_scope.md R8, R9 and R11.
Bit 31 is the most significant bit of a word (R9). Only plain abbreviations stand here. -/

namespace Sys2Proof

/-- A register, an ALU operand, a memory word, an instruction word: 32 bits (R8, R80). -/
abbrev Word := BitVec 32

/-- A word address and the program counter: 16 bits (R25, R50). -/
abbrev Addr := BitVec 16

/-- A format I immediate: 16 bits (R83). -/
abbrev Half := BitVec 16

/-- A register index field: 5 bits, so always one of the 32 registers (R81). -/
abbrev RegIdx := BitVec 5

/-- The opcode field: 8 bits (R81). -/
abbrev OpByte := BitVec 8

end Sys2Proof
end

