-- ==== Sys2Proof/Syntax.lean ====
section
/-! DEFINITION. The instruction set as syntax: one constructor of `Instr` per row of
spec/opcode_table.json, the closed sets of names the spec uses, and the decoder's tagged record
(spec/30_encoding.md R81, R88; spec/40_step_and_control.md R111). -/

namespace Sys2Proof

/-- The 21 mnemonics that have an opcode number (R88), in the order R88 lists them. HALT has none. -/
inductive Opcode where
  | add | sub | zero | xor | or | and | not | copy | sal | sll | sar | slr
  | loadh | loadl | lw | sw | jal | jr | j | jeq | jne
  deriving DecidableEq, Repr

/-- The twelve operations of the ALU, a closed set (R140, R158, R225). -/
inductive AluOp where
  | add | sub | zero | xor | or | and | not | copy | sal | sll | sar | slr
  deriving DecidableEq, Repr

/-- The five field formats and the HALT variant (R81). -/
inductive Format where
  | r | i | j | jr | b | halt
  deriving DecidableEq, Repr

/-- `DecodedInstruction`, the tagged record the decoder hands to the control unit (R111). The offset
of format B is already sign-extended to 32 bits (R85). A field that a format lacks is absent. -/
inductive Decoded where
  | r (op : OpByte) (ra rb rc : RegIdx)
  | i (op : OpByte) (ra : RegIdx) (immediate : Half)
  | j (op : OpByte) (address : Addr)
  | jr (op : OpByte) (rc : RegIdx)
  | b (op : OpByte) (ra rb : RegIdx) (offset : Word)
  | halt
  deriving DecidableEq, Repr

/-- An instruction. The fields are those of its format (R81, R87); ZERO, NOT and COPY carry the
fields they ignore (R143, R147, R148). -/
inductive Instr where
  | halt
  | add (ra rb rc : RegIdx)
  | sub (ra rb rc : RegIdx)
  | zero (ra rb rc : RegIdx)
  | xor (ra rb rc : RegIdx)
  | or (ra rb rc : RegIdx)
  | and (ra rb rc : RegIdx)
  | not (ra rb rc : RegIdx)
  | copy (ra rb rc : RegIdx)
  | sal (ra rb rc : RegIdx)
  | sll (ra rb rc : RegIdx)
  | sar (ra rb rc : RegIdx)
  | slr (ra rb rc : RegIdx)
  | loadh (ra : RegIdx) (imm : Half)
  | loadl (ra : RegIdx) (imm : Half)
  | lw (ra : RegIdx) (imm : Half)
  | sw (ra : RegIdx) (imm : Half)
  | jal (address : Addr)
  | jr (rc : RegIdx)
  | j (address : Addr)
  | jeq (ra rb : RegIdx) (offset : Word)
  | jne (ra rb : RegIdx) (offset : Word)
  deriving DecidableEq, Repr

end Sys2Proof
end

