-- ==== Sys2Proof/Config.lean ====
section
/-! DEFINITION. What an implementation fixes (spec/00_scope.md R8, spec/92_eei_decisions.md "Open
parameters") and the free values: constants with no body, so that nothing can be proved of them.
The default of an open parameter stands beside the function that uses it: `defaultOpc` in
Decode.lean, `logicCV` in Machine/Alu.lean, `entryPc` in Machine/HostOps.lean. -/

namespace Sys2Proof

/-- The open parameter `OPC` (R88, D1): the 8-bit number of each of the 21 mnemonics. The spec asks
that it be injective; `opcWellFormed` in WellFormed.lean checks it. Log 1. -/
abbrev OpcodeMap := Opcode → OpByte

/-- The number of memory words (R50). -/
def memorySize : Nat := 65536

/-- The number of general registers (R20). -/
def registerCount : Nat := 32

/-- FREE VALUE. Whether the memory's `dump(start, end)` gives the word at `end` too: not stated
(R256, U6). Log 20. -/
opaque Config.dumpIncludesEnd : Bool

/-- FREE VALUE. What the port `rf_raddr2` shows for a word whose format has no second register
operand: the port table of R263 states it for formats R and B only. Log 10. -/
opaque Config.idleRaddr2 : Word → RegIdx

/-- FREE VALUE. What the port `rf_wdata` shows in a cycle that has no result to write: R263 says
"the step's result", and such a step has none. Log 10. -/
opaque Config.idleWdata : Word → Word

end Sys2Proof
end

