-- ==== Sys2Proof/WellFormed.lean ====
section
/-! DEFINITION. What a term of `Instr` must meet to be an instruction that some word encodes, and
what a numbering of the opcodes must meet (spec/30_encoding.md R81, R85, R86, R88). Register
fields, immediates and addresses have the widths of their fields, so only the 32-bit branch offset
can be out of range. -/

namespace Sys2Proof

/-- The range of a branch offset: -8192 to 8191 (R85). -/
def offsetInRange (offset : Word) : Bool :=
  decide (-8192 ≤ offset.toInt) && decide (offset.toInt ≤ 8191)

/-- An instruction some word encodes: a branch offset is in range (R85, R86); every value of every
other field is legal (R91). -/
def Instr.wf : Instr → Bool
  | .halt => true
  | .add _ _ _ => true
  | .sub _ _ _ => true
  | .zero _ _ _ => true
  | .xor _ _ _ => true
  | .or _ _ _ => true
  | .and _ _ _ => true
  | .not _ _ _ => true
  | .copy _ _ _ => true
  | .sal _ _ _ => true
  | .sll _ _ _ => true
  | .sar _ _ _ => true
  | .slr _ _ _ => true
  | .loadh _ _ => true
  | .loadl _ _ => true
  | .lw _ _ => true
  | .sw _ _ => true
  | .jal _ => true
  | .jr _ => true
  | .j _ => true
  | .jeq _ _ offset => offsetInRange offset
  | .jne _ _ offset => offsetInRange offset

/-- The 21 mnemonics in the order of R88. -/
def allOpcodes : List Opcode :=
  [.add, .sub, .zero, .xor, .or, .and, .not, .copy, .sal, .sll, .sar, .slr,
   .loadh, .loadl, .lw, .sw, .jal, .jr, .j, .jeq, .jne]

/-- The spec's one constraint on `OPC`: no two mnemonics share a number (R88, R90). -/
def opcWellFormed (opc : OpcodeMap) : Bool :=
  decide (allOpcodes.map opc).Nodup

end Sys2Proof
end

