-- ==== Sys2Proof/Decode.lean ====
section
/-! DEFINITION. The decoder of spec/40_step_and_control.md R110 to R112 and the canonical encoder of
spec/30_encoding.md R86, both for any opcode numbering (`decodeWith`, `encodeWith`) and for the
default one (`decode`, `encode`). Bit ranges are those of R81. -/

namespace Sys2Proof

/-! ## The opcode table (R87, R88) -/

/-- The opcode to format table (R87). Log 23. -/
def Opcode.format : Opcode → Format
  | .add => .r
  | .sub => .r
  | .zero => .r
  | .xor => .r
  | .or => .r
  | .and => .r
  | .not => .r
  | .copy => .r
  | .sal => .r
  | .sll => .r
  | .sar => .r
  | .slr => .r
  | .loadh => .i
  | .loadl => .i
  | .lw => .i
  | .sw => .i
  | .jal => .j
  | .jr => .jr
  | .j => .j
  | .jeq => .b
  | .jne => .b

/-- DESIGN CHOICE (the spec's, D1; unsafe): the default numbering of R88, 0x01 to 0x15. Log 1. -/
def defaultOpc : OpcodeMap
  | .add => 0x01
  | .sub => 0x02
  | .zero => 0x03
  | .xor => 0x04
  | .or => 0x05
  | .and => 0x06
  | .not => 0x07
  | .copy => 0x08
  | .sal => 0x09
  | .sll => 0x0A
  | .sar => 0x0B
  | .slr => 0x0C
  | .loadh => 0x0D
  | .loadl => 0x0E
  | .lw => 0x0F
  | .sw => 0x10
  | .jal => 0x11
  | .jr => 0x12
  | .j => 0x13
  | .jeq => 0x14
  | .jne => 0x15

/-- The HALT sentinel, all bits set (R89). -/
def haltWord : Word := 0xFFFFFFFF

/-- The mnemonic whose number is `b`, if any (R90). -/
def lookupOpcode (opc : OpcodeMap) (b : OpByte) : Option Opcode :=
  allOpcodes.find? (fun m => opc m == b)

/-! ## Field extraction (R81) -/

/-- `w[31:24]`. -/
def opcodeField (w : Word) : OpByte := w.extractLsb' 24 8

/-- `w[23:19]`, the field `ra` of formats R, I and B. -/
def raField (w : Word) : RegIdx := w.extractLsb' 19 5

/-- `w[18:14]`, the field `rb` of formats R and B. -/
def rbField (w : Word) : RegIdx := w.extractLsb' 14 5

/-- `w[13:9]`, the field `rc` of format R. -/
def rcField (w : Word) : RegIdx := w.extractLsb' 9 5

/-- `w[23:19]`, the field `rc` of format JR (R81: it sits where `ra` sits elsewhere). -/
def jrField (w : Word) : RegIdx := w.extractLsb' 19 5

/-- `w[18:3]`, unsigned (R83). -/
def immField (w : Word) : Half := w.extractLsb' 3 16

/-- `w[23:8]`, an absolute word address (R84). -/
def addrField (w : Word) : Addr := w.extractLsb' 8 16

/-- `w[13:0]` sign-extended to 32 bits, two's complement (R85, conflict C3). -/
def offsetField (w : Word) : Word := (w.extractLsb' 0 14).signExtend 32

/-- The instruction with mnemonic `m` whose fields stand in `w`, by `m`'s format (R90, R112). No
unused bit is read (R82). Log 2. -/
def fieldsOf (m : Opcode) (w : Word) : Instr :=
  match m with
  | .add => .add (raField w) (rbField w) (rcField w)
  | .sub => .sub (raField w) (rbField w) (rcField w)
  | .zero => .zero (raField w) (rbField w) (rcField w)
  | .xor => .xor (raField w) (rbField w) (rcField w)
  | .or => .or (raField w) (rbField w) (rcField w)
  | .and => .and (raField w) (rbField w) (rcField w)
  | .not => .not (raField w) (rbField w) (rcField w)
  | .copy => .copy (raField w) (rbField w) (rcField w)
  | .sal => .sal (raField w) (rbField w) (rcField w)
  | .sll => .sll (raField w) (rbField w) (rcField w)
  | .sar => .sar (raField w) (rbField w) (rcField w)
  | .slr => .slr (raField w) (rbField w) (rcField w)
  | .loadh => .loadh (raField w) (immField w)
  | .loadl => .loadl (raField w) (immField w)
  | .lw => .lw (raField w) (immField w)
  | .sw => .sw (raField w) (immField w)
  | .jal => .jal (addrField w)
  | .jr => .jr (jrField w)
  | .j => .j (addrField w)
  | .jeq => .jeq (raField w) (rbField w) (offsetField w)
  | .jne => .jne (raField w) (rbField w) (offsetField w)

/-! ## The decoder (R112) -/

/-- The decoder under the numbering `opc`: the sentinel first (R89), then the opcode lookup (R90);
`none` is the error `UnrecognizedOpcode(w)` (R91). -/
def decodeWith (opc : OpcodeMap) (w : Word) : Option Instr :=
  if w = haltWord then some .halt
  else (lookupOpcode opc (opcodeField w)).map (fun m => fieldsOf m w)

/-- The decoder under the default numbering. -/
def decode (w : Word) : Option Instr := decodeWith defaultOpc w

/-! ## The encoder (R86) -/

/-- The mnemonic of an instruction; HALT has no opcode (R81). -/
def Instr.opcode : Instr → Option Opcode
  | .halt => none
  | .add _ _ _ => some .add
  | .sub _ _ _ => some .sub
  | .zero _ _ _ => some .zero
  | .xor _ _ _ => some .xor
  | .or _ _ _ => some .or
  | .and _ _ _ => some .and
  | .not _ _ _ => some .not
  | .copy _ _ _ => some .copy
  | .sal _ _ _ => some .sal
  | .sll _ _ _ => some .sll
  | .sar _ _ _ => some .sar
  | .slr _ _ _ => some .slr
  | .loadh _ _ => some .loadh
  | .loadl _ _ => some .loadl
  | .lw _ _ => some .lw
  | .sw _ _ => some .sw
  | .jal _ => some .jal
  | .jr _ => some .jr
  | .j _ => some .j
  | .jeq _ _ _ => some .jeq
  | .jne _ _ _ => some .jne

/-- Format R: `(op << 24) | (ra << 19) | (rb << 14) | (rc << 9)` (R86). -/
def packR (op : OpByte) (ra rb rc : RegIdx) : Word :=
  (op.setWidth 32 <<< 24) ||| (ra.setWidth 32 <<< 19) ||| (rb.setWidth 32 <<< 14) |||
    (rc.setWidth 32 <<< 9)

/-- Format I: `(op << 24) | (ra << 19) | (imm16 << 3)` (R86). -/
def packI (op : OpByte) (ra : RegIdx) (imm : Half) : Word :=
  (op.setWidth 32 <<< 24) ||| (ra.setWidth 32 <<< 19) ||| (imm.setWidth 32 <<< 3)

/-- Format J: `(op << 24) | (addr16 << 8)` (R86). -/
def packJ (op : OpByte) (address : Addr) : Word :=
  (op.setWidth 32 <<< 24) ||| (address.setWidth 32 <<< 8)

/-- Format JR: `(op << 24) | (rc << 19)` (R86). -/
def packJR (op : OpByte) (rc : RegIdx) : Word :=
  (op.setWidth 32 <<< 24) ||| (rc.setWidth 32 <<< 19)

/-- Format B: `(op << 24) | (ra << 19) | (rb << 14) | (offset & 0x3FFF)` (R86). -/
def packB (op : OpByte) (ra rb : RegIdx) (offset : Word) : Word :=
  (op.setWidth 32 <<< 24) ||| (ra.setWidth 32 <<< 19) ||| (rb.setWidth 32 <<< 14) |||
    (offset &&& 0x3FFF)

/-- The canonical encoding under the numbering `opc`: every unused bit is 0 (R86). Log 22. -/
def encodeWith (opc : OpcodeMap) : Instr → Word
  | .halt => haltWord
  | .add ra rb rc => packR (opc .add) ra rb rc
  | .sub ra rb rc => packR (opc .sub) ra rb rc
  | .zero ra rb rc => packR (opc .zero) ra rb rc
  | .xor ra rb rc => packR (opc .xor) ra rb rc
  | .or ra rb rc => packR (opc .or) ra rb rc
  | .and ra rb rc => packR (opc .and) ra rb rc
  | .not ra rb rc => packR (opc .not) ra rb rc
  | .copy ra rb rc => packR (opc .copy) ra rb rc
  | .sal ra rb rc => packR (opc .sal) ra rb rc
  | .sll ra rb rc => packR (opc .sll) ra rb rc
  | .sar ra rb rc => packR (opc .sar) ra rb rc
  | .slr ra rb rc => packR (opc .slr) ra rb rc
  | .loadh ra imm => packI (opc .loadh) ra imm
  | .loadl ra imm => packI (opc .loadl) ra imm
  | .lw ra imm => packI (opc .lw) ra imm
  | .sw ra imm => packI (opc .sw) ra imm
  | .jal address => packJ (opc .jal) address
  | .jr rc => packJR (opc .jr) rc
  | .j address => packJ (opc .j) address
  | .jeq ra rb offset => packB (opc .jeq) ra rb offset
  | .jne ra rb offset => packB (opc .jne) ra rb offset

/-- The canonical encoding under the default numbering. -/
def encode (i : Instr) : Word := encodeWith defaultOpc i

/-- The bits of a word that some field of the format covers; the others are unused (R81, R82). All
bits of the sentinel are looked at (R89). -/
def Format.usedBits : Format → Word
  | .r => 0xFFFFFE00
  | .i => 0xFFFFFFF8
  | .j => 0xFFFFFF00
  | .jr => 0xFFF80000
  | .b => 0xFFFFFFFF
  | .halt => 0xFFFFFFFF

/-- The format of an instruction (R81, R87). -/
def Instr.format (i : Instr) : Format :=
  match i.opcode with
  | none => .halt
  | some m => m.format

/-! ## The decoder's tagged record (R110, R111) -/

/-- The tagged record of an instruction under the numbering `opc` (R111). -/
def Instr.record (opc : OpcodeMap) : Instr → Decoded
  | .halt => .halt
  | .add ra rb rc => .r (opc .add) ra rb rc
  | .sub ra rb rc => .r (opc .sub) ra rb rc
  | .zero ra rb rc => .r (opc .zero) ra rb rc
  | .xor ra rb rc => .r (opc .xor) ra rb rc
  | .or ra rb rc => .r (opc .or) ra rb rc
  | .and ra rb rc => .r (opc .and) ra rb rc
  | .not ra rb rc => .r (opc .not) ra rb rc
  | .copy ra rb rc => .r (opc .copy) ra rb rc
  | .sal ra rb rc => .r (opc .sal) ra rb rc
  | .sll ra rb rc => .r (opc .sll) ra rb rc
  | .sar ra rb rc => .r (opc .sar) ra rb rc
  | .slr ra rb rc => .r (opc .slr) ra rb rc
  | .loadh ra imm => .i (opc .loadh) ra imm
  | .loadl ra imm => .i (opc .loadl) ra imm
  | .lw ra imm => .i (opc .lw) ra imm
  | .sw ra imm => .i (opc .sw) ra imm
  | .jal address => .j (opc .jal) address
  | .jr rc => .jr (opc .jr) rc
  | .j address => .j (opc .j) address
  | .jeq ra rb offset => .b (opc .jeq) ra rb offset
  | .jne ra rb offset => .b (opc .jne) ra rb offset

/-- The decoder as R110 to R112 give it, from a word to the tagged record. -/
def decodeRecordWith (opc : OpcodeMap) (w : Word) : Option Decoded :=
  (decodeWith opc w).map (Instr.record opc)

/-- The format tag of a record. -/
def Decoded.format : Decoded → Format
  | .r _ _ _ _ => .r
  | .i _ _ _ => .i
  | .j _ _ => .j
  | .jr _ _ => .jr
  | .b _ _ _ _ => .b
  | .halt => .halt

/-- The opcode field of a record, absent for HALT (R111). -/
def Decoded.opByte : Decoded → Option OpByte
  | .r op _ _ _ => some op
  | .i op _ _ => some op
  | .j op _ => some op
  | .jr op _ => some op
  | .b op _ _ _ => some op
  | .halt => none

/-! ## The host's numbering of an instruction's bits -/

/-- The instruction word whose low `nbits` bits are those of `w`, every bit above them 0; bit 0 is
the least significant bit (R9). -/
def tableWord (nbits w : Nat) : Word := (BitVec.ofNat nbits w).setWidth 32

/-- What the decoder reads from the instruction whose bits are `w`, numbered as
spec/opcode_table.json numbers them. An instruction is one memory word (R80), so there is no order of
parts to lay out. -/
def decodeTableWord (nbits w : Nat) : Option Instr := decode (tableWord nbits w)

end Sys2Proof
end

