-- ==== Sys2Proof/Machine/State.lean ====
section
/-! DEFINITION. The state of the machine as plain data, the reasons an operation can fail, and the
state right after reset (spec/10_state.md R20 to R41). -/

namespace Sys2Proof.Machine

/-- The three durable states of the processor (R27, R29). It is a run state, no privilege (R232). -/
inductive RunMode where
  | running
  | halted
  | fault
  deriving DecidableEq, Repr

/-- The four status flags, four independent booleans, packed in no word (R31). -/
structure Flags where
  negative : Bool
  zero : Bool
  carry : Bool
  overflow : Bool
  deriving DecidableEq, Repr

/-- The word store (R50): the words that are not zero, as (address, word) pairs. The unit is the
word, because "the word is the smallest thing any instruction or any host operation can read or
write" (R50, R54, D13). The canonical form is `Memory.wf` in Machine/Ops.lean. Log 13. -/
structure Memory where
  cells : List (Nat × Word)
  deriving DecidableEq, Repr

/-- Everything that persists between steps (R20 to R37). -/
structure State where
  /-- `x[0]` to `x[31]` (R20). Slot 0 is never read (R21), see `State.readReg`. Log 24. -/
  regs : Vector Word 32
  /-- The program counter, a word address (R25). -/
  pc : Addr
  /-- The instruction register, the most recently fetched word (R28). -/
  ir : Word
  /-- The run mode (R27). -/
  mode : RunMode
  /-- N, Z, C, V (R31). -/
  flags : Flags
  /-- `cycle_count`, a natural (R30). -/
  cycleCount : Nat
  /-- `instruction_count`, a natural (R30). -/
  instructionCount : Nat
  /-- `M[0]` to `M[65535]` (R37, R50). -/
  mem : Memory
  deriving DecidableEq, Repr

/-- The errors of R220 that an operation of this model can answer. No step stops with one: the only
error of a step, `unrecognizedOpcode`, leads to a next state in mode fault (R223) and is what the
host's `step()` reports beside it. R220's contract and parse violations are not here: a typed model
cannot express the one (R222), the other belongs to the loader outside the CORE (R227). -/
inductive Fault where
  /-- Raised by the decoder for a word that is not the sentinel and whose opcode byte is unassigned
  (R224); reported by `hostStep` and `runWith`. Safe: the spec's own error, with its own state. -/
  | unrecognizedOpcode (w : Word)
  /-- Raised by the ALU block asked for an operation outside the twelve (R156); no step reaches it
  (R225). Safe. -/
  | invalidAluOpcode (op : OpByte)
  /-- Raised by the control unit for a record the decoder did not make (R116); no step reaches it
  (R226). Safe. -/
  | controlOpcodeNotRecognized (d : Decoded)
  /-- Raised by a host operation on an address or register index outside its domain (R221). Safe: the
  operation changes nothing. -/
  | rangeViolation
  /-- Raised by the flags' get and set for any other name (R222, R256). Safe: nothing changes. -/
  | unknownFlag (name : String)
  deriving DecidableEq, Repr

/-- Why an instruction has no meaning. -/
inductive Refusal where
  /-- An instruction without a meaning in this model, by its mnemonic. No arm of `exec` answers it.
  Safe: the machine stops where the hardware goes on. -/
  | notModelled (mnemonic : String)
  deriving DecidableEq, Repr

/-- All four flags false (R38). -/
def Flags.clear : Flags := ⟨false, false, false, false⟩

/-- The machine right after reset: the table of R38, every value the spec's own. -/
def State.reset : State where
  regs := Vector.replicate 32 0
  pc := 0
  ir := 0
  mode := .running
  flags := Flags.clear
  cycleCount := 0
  instructionCount := 0
  mem := ⟨[]⟩

end Sys2Proof.Machine
end

