-- ==== Sys2Proof/Machine/Flags.lean ====
section
/-! DEFINITION. Every flag computation the spec gives: the ALU's carry and overflow outputs
(spec/41_alu.md R141, R142) and the flag update (R153), with the flags by name (R31, R260). -/

namespace Sys2Proof.Machine

/-- What the ALU returns: `(result, carry, overflow)` (R140). -/
structure AluOut where
  result : Word
  carry : Bool
  overflow : Bool
  deriving DecidableEq, Repr

/-- ADD's carry: the unmasked sum exceeds 2^32 - 1 (R141). -/
def addCarry (a b : Word) : Bool := decide (a.toNat + b.toNat > 0xFFFFFFFF)

/-- ADD's overflow: `a` and `b` have the same sign bit and the result's differs from theirs (R141). -/
def addOverflow (a b result : Word) : Bool := (a.msb == b.msb) && (result.msb != a.msb)

/-- SUB's carry, a borrow: the unmasked difference is negative (R142). -/
def subBorrow (a b : Word) : Bool := decide ((a.toNat : Int) - (b.toNat : Int) < 0)

/-- SUB's overflow: `a` and `b` differ in sign bit and the result's differs from `a`'s (R142). -/
def subOverflow (a b result : Word) : Bool := (a.msb != b.msb) && (result.msb != a.msb)

/-- The flag update: Z from the result, N from its bit 31, C and V copied (R153). All four are
written, whatever they held. -/
def flagsOf (o : AluOut) : Flags where
  negative := o.result.msb
  zero := decide (o.result = 0)
  carry := o.carry
  overflow := o.overflow

/-- A flag by name, if the name is one of the four (R31, R256). -/
def flagByName (f : Flags) (name : String) : Option Bool :=
  if name = "negative" then some f.negative
  else if name = "zero" then some f.zero
  else if name = "carry" then some f.carry
  else if name = "overflow" then some f.overflow
  else none

/-- The flags with the named one set to `v`, if the name is one of the four (R31, R260). -/
def setFlagByName (f : Flags) (name : String) (v : Bool) : Option Flags :=
  if name = "negative" then some { f with negative := v }
  else if name = "zero" then some { f with zero := v }
  else if name = "carry" then some { f with carry := v }
  else if name = "overflow" then some { f with overflow := v }
  else none

end Sys2Proof.Machine
end

