-- ==== Sys2Proof/Machine/Ops.lean ====
section
/-! DEFINITION. The named operations over memory, registers and the processor record, each said once
(spec/10_state.md, spec/20_memory.md, spec/40_step_and_control.md, spec/60_exceptions.md). -/

namespace Sys2Proof.Machine

/-! ## Memory (R50 to R53) -/

/-- What an address not listed reads as: the reset contents, 0 (R38, R57). -/
def unlistedWord : Word := 0

/-- The word a list of cells gives for a key. -/
def lookupCell : List (Nat × Word) → Nat → Word
  | [], _ => unlistedWord
  | (k, v) :: rest, a => if k = a then v else lookupCell rest a

/-- The cells with no entry for the key `a`. -/
def dropCell : List (Nat × Word) → Nat → List (Nat × Word)
  | [], _ => []
  | (k, v) :: rest, a => if k = a then dropCell rest a else (k, v) :: dropCell rest a

/-- The cells with the entry `(a, v)` put at its place among rising keys. -/
def insertCell : List (Nat × Word) → Nat → Word → List (Nat × Word)
  | [], a, v => [(a, v)]
  | (k, x) :: rest, a, v =>
    if a < k then (a, v) :: (k, x) :: rest
    else if a = k then (a, v) :: rest
    else (k, x) :: insertCell rest a v

/-- Canonical form from a lower bound on: keys at least `lo`, strictly rising, below the memory's
size, and no word equal to the one an unlisted address reads as. -/
def cellsWf : Nat → List (Nat × Word) → Bool
  | _, [] => true
  | lo, (k, v) :: rest =>
    decide (lo ≤ k) && decide (k < memorySize) && decide (v ≠ unlistedWord) && cellsWf (k + 1) rest

/-- The canonical form of a memory: equal memories are equal data. Log 13. -/
def Memory.wf (m : Memory) : Bool := cellsWf 0 m.cells

/-- `MemRead(addr, 1)`: the word at `addr`; it never fails and changes nothing (R52). -/
def Memory.read (m : Memory) (a : Addr) : Word := lookupCell m.cells a.toNat

/-- `MemWrite(addr, 1, v)`: the whole word is replaced, no other word changes (R53). -/
def Memory.write (m : Memory) (a : Addr) (v : Word) : Memory :=
  if v = unlistedWord then ⟨dropCell m.cells a.toNat⟩ else ⟨insertCell m.cells a.toNat v⟩

/-- The memory's `clear()`: every word 0 (R51). -/
def Memory.cleared : Memory := ⟨[]⟩

/-! ## Registers (R20, R21) -/

/-- The value of register `i`; register 0 always reads 0 (R21). -/
def State.readReg (s : State) (i : RegIdx) : Word :=
  if i = 0#5 then 0#32 else s.regs[i.toNat]'(by have := i.isLt; omega)

/-- Write register `i`; a write to register 0 is discarded (R21). -/
def State.writeReg (s : State) (i : RegIdx) (v : Word) : State :=
  if i = 0#5 then s
  else { s with regs := s.regs.set i.toNat v (by have := i.isLt; omega) }

/-! ## The processor record -/

/-- The word the fetch phase reads, `MemRead(pc, 1)` (R121). -/
def State.fetch (s : State) : Word := s.mem.read s.pc

/-- The incremented program counter of this step, `(pc + 1) mod 2^16` (R26, R121). -/
def State.npc (s : State) : Addr := s.pc + 1

/-- `pc <- t`. -/
def State.setPc (s : State) (t : Addr) : State := { s with pc := t }

/-- `N, Z, C, V <- f`. -/
def State.setFlags (s : State) (f : Flags) : State := { s with flags := f }

/-- `mode <- m`. -/
def State.setMode (s : State) (m : RunMode) : State := { s with mode := m }

/-- `M[a] <- v`, leaving the rest of the state (R53). -/
def State.writeMem (s : State) (a : Addr) (v : Word) : State := { s with mem := s.mem.write a v }

/-- The common effects of every step that does not fault: `ir <- w` and both counters plus 1 (R125).
DESIGN CHOICE (the spec's, D5 and D6; unsafe). Logs 5 and 6. -/
def State.retire (s : State) (w : Word) : State :=
  { s with ir := w, cycleCount := s.cycleCount + 1, instructionCount := s.instructionCount + 1 }

/-! ## The fault and the way out of it (R223, R230, R231) -/

/-- What a step that raises `UnrecognizedOpcode(w)` leaves: `ir <- w`, `mode <- fault`, and nothing
else (R126, R223). There is no trap entry: no saved pc, no cause, no handler (R230). DESIGN CHOICE
(the spec's, D7; unsafe as to pc, U4). Log 7. -/
def State.takeFault (s : State) (w : Word) : State := { s with ir := w, mode := .fault }

/-- The `reset` operation, the one way out of modes halted and fault (R29, R231): whatever the state,
it becomes the reset state (R250). Log 11. -/
def State.applyReset (_ : State) : State := State.reset

end Sys2Proof.Machine
end

