-- ==== Sys2Proof/Machine/Operands.lean ====
section
/-! DEFINITION. Every operand form of the instruction set: which registers an instruction reads and
writes (spec/40_step_and_control.md R122, R124), half-word packing, the effective address, the shift
amount and the targets of control transfers. -/

namespace Sys2Proof.Machine

/-- The registers the decode phase reads, by format: "R: rb,rc; I (LW/SW/LOADx): ra; B: ra,rb;
JR: rc; J/HALT: none" (R23, R122). -/
def sourceRegs : Instr → List RegIdx
  | .halt => []
  | .add _ rb rc => [rb, rc]
  | .sub _ rb rc => [rb, rc]
  | .zero _ rb rc => [rb, rc]
  | .xor _ rb rc => [rb, rc]
  | .or _ rb rc => [rb, rc]
  | .and _ rb rc => [rb, rc]
  | .not _ rb rc => [rb, rc]
  | .copy _ rb rc => [rb, rc]
  | .sal _ rb rc => [rb, rc]
  | .sll _ rb rc => [rb, rc]
  | .sar _ rb rc => [rb, rc]
  | .slr _ rb rc => [rb, rc]
  | .loadh ra _ => [ra]
  | .loadl ra _ => [ra]
  | .lw ra _ => [ra]
  | .sw ra _ => [ra]
  | .jal _ => []
  | .jr rc => [rc]
  | .j _ => []
  | .jeq ra rb _ => [ra, rb]
  | .jne ra rb _ => [ra, rb]

/-- The destination register: "register 31 for JAL, `ra` for ALU/I-type instructions" (R124); SW, JR,
J, JEQ, JNE and HALT write none. -/
def destReg : Instr → Option RegIdx
  | .halt => none
  | .add ra _ _ => some ra
  | .sub ra _ _ => some ra
  | .zero ra _ _ => some ra
  | .xor ra _ _ => some ra
  | .or ra _ _ => some ra
  | .and ra _ _ => some ra
  | .not ra _ _ => some ra
  | .copy ra _ _ => some ra
  | .sal ra _ _ => some ra
  | .sll ra _ _ => some ra
  | .sar ra _ _ => some ra
  | .slr ra _ _ => some ra
  | .loadh ra _ => some ra
  | .loadl ra _ => some ra
  | .lw ra _ => some ra
  | .sw _ _ => none
  | .jal _ => some 31
  | .jr _ => none
  | .j _ => none
  | .jeq _ _ _ => none
  | .jne _ _ _ => none

/-- The link register of JAL (R22, R200). -/
def linkReg : RegIdx := 31

/-- LOADH's result: the immediate in the upper half, the lower half of `old` kept (R170). -/
def packHigh (imm : Half) (old : Word) : Word := imm ++ old.extractLsb' 0 16

/-- LOADL's result: the immediate in the lower half, the upper half of `old` kept (R171). -/
def packLow (imm : Half) (old : Word) : Word := old.extractLsb' 16 16 ++ imm

/-- The effective address of LW and SW: the immediate field and nothing else (R180, conflict C6). -/
def effectiveAddr (imm : Half) : Addr := imm

/-- The shift amount: the low five bits of the second operand (R155). -/
def shiftAmount (b : Word) : Nat := (b.extractLsb' 0 5).toNat

/-- A taken branch's target: the incremented pc plus the offset modulo 2^16 (R190). Log 21. -/
def branchTarget (npc : Addr) (offset : Word) : Addr := npc + offset.setWidth 16

/-- JR's target: the low 16 bits of the register (R201). -/
def jumpRegTarget (v : Word) : Addr := v.setWidth 16

/-- JAL's link value: the incremented pc zero-extended to 32 bits (R200). DESIGN CHOICE (the spec's,
D19; unsafe). Log 18. -/
def linkValue (npc : Addr) : Word := npc.setWidth 32

end Sys2Proof.Machine
end

