-- ==== Sys2Proof/Machine/Alu.lean ====
section
/-! DEFINITION. The ALU block (spec/41_alu.md R140 to R152, R155, R156): twelve operations on two
words, each giving a result, a carry and an overflow output. -/

namespace Sys2Proof.Machine

/-- DESIGN CHOICE (the spec's, D4; unsafe as to C and V): the carry and overflow outputs of the nine
operations other than ADD, SUB and ZERO are false (R144 to R152). The open parameter `LOGIC_CV`,
an argument of `aluWith`. Log 4. -/
def logicCV : Bool × Bool := (false, false)

/-- ADD (R141): the unmasked sum modulo 2^32, with carry and overflow. -/
def aluAdd (a b : Word) : AluOut :=
  let result : Word := BitVec.ofNat 32 (a.toNat + b.toNat)
  ⟨result, addCarry a b, addOverflow a b result⟩

/-- SUB (R142): the unmasked difference modulo 2^32, with borrow and overflow. -/
def aluSub (a b : Word) : AluOut :=
  let result : Word := BitVec.ofInt 32 ((a.toNat : Int) - (b.toNat : Int))
  ⟨result, subBorrow a b, subOverflow a b result⟩

/-- A result with the outputs of the parameter `LOGIC_CV` (R144 to R152). -/
def logicOut (cv : Bool × Bool) (result : Word) : AluOut := ⟨result, cv.1, cv.2⟩

/-- `Alu(op, a, b)` with `LOGIC_CV` as an argument (R140). Shift amounts are those of R155. -/
def aluWith (cv : Bool × Bool) (op : AluOp) (a b : Word) : AluOut :=
  match op with
  | .add => aluAdd a b
  | .sub => aluSub a b
  | .zero => ⟨0, false, false⟩
  | .xor => logicOut cv (a ^^^ b)
  | .or => logicOut cv (a ||| b)
  | .and => logicOut cv (a &&& b)
  | .not => logicOut cv (~~~a)
  | .copy => logicOut cv a
  | .sal => logicOut cv (a <<< shiftAmount b)
  | .sll => logicOut cv (a <<< shiftAmount b)
  | .sar => logicOut cv (a.sshiftRight (shiftAmount b))
  | .slr => logicOut cv (a >>> shiftAmount b)

/-- `Alu(op, a, b)` (R140). -/
def alu (op : AluOp) (a b : Word) : AluOut := aluWith logicCV op a b

/-- The ALU operation of an opcode: the twelve ALU mnemonics have one (R87, R115). -/
def aluOpOf : Opcode → Option AluOp
  | .add => some .add
  | .sub => some .sub
  | .zero => some .zero
  | .xor => some .xor
  | .or => some .or
  | .and => some .and
  | .not => some .not
  | .copy => some .copy
  | .sal => some .sal
  | .sll => some .sll
  | .sar => some .sar
  | .slr => some .slr
  | .loadh => none
  | .loadl => none
  | .lw => none
  | .sw => none
  | .jal => none
  | .jr => none
  | .j => none
  | .jeq => none
  | .jne => none

/-- The ALU block called with an opcode byte: it "Fails with an "invalid opcode" error for any value
outside the twelve defined codes" (R156). -/
def aluByCode (opc : OpcodeMap) (op : OpByte) (a b : Word) : Except Fault AluOut :=
  match (lookupOpcode opc op).bind aluOpOf with
  | some o => .ok (alu o a b)
  | none => .error (.invalidAluOpcode op)

end Sys2Proof.Machine
end

