-- ==== Sys2Proof/Machine/AluInstr.lean ====
section
/-! DEFINITION. The twelve ALU instructions (spec/41_alu.md), each the template of R154 over its own
operation. -/

namespace Sys2Proof.Machine

/-- The template of R154: `a` is `x[rb]` and `b` is `x[rc]`, read before any write; all four flags are
written from the ALU's triple (R153); the result goes to `x[ra]`, discarded when `ra` is 0; pc becomes
npc. DESIGN CHOICE (the spec's, D3; unsafe): the operand order. Log 3. -/
def execAlu (op : AluOp) (ra rb rc : RegIdx) (s : State) : Host.Outcome State Fault Refusal :=
  let out := alu op (s.readReg rb) (s.readReg rc)
  .next (((s.writeReg ra out.result).setFlags (flagsOf out)).setPc s.npc)

/-- ADD `ra, rb, rc` (R141). -/
def execAdd (ra rb rc : RegIdx) (s : State) : Host.Outcome State Fault Refusal :=
  execAlu .add ra rb rc s

/-- SUB `ra, rb, rc` (R142): `x[rb] - x[rc]`. -/
def execSub (ra rb rc : RegIdx) (s : State) : Host.Outcome State Fault Refusal :=
  execAlu .sub ra rb rc s

/-- ZERO `ra` (R143). -/
def execZero (ra rb rc : RegIdx) (s : State) : Host.Outcome State Fault Refusal :=
  execAlu .zero ra rb rc s

/-- XOR `ra, rb, rc` (R144). -/
def execXor (ra rb rc : RegIdx) (s : State) : Host.Outcome State Fault Refusal :=
  execAlu .xor ra rb rc s

/-- OR `ra, rb, rc` (R145). -/
def execOr (ra rb rc : RegIdx) (s : State) : Host.Outcome State Fault Refusal :=
  execAlu .or ra rb rc s

/-- AND `ra, rb, rc` (R146). -/
def execAnd (ra rb rc : RegIdx) (s : State) : Host.Outcome State Fault Refusal :=
  execAlu .and ra rb rc s

/-- NOT `ra, rb` (R147). -/
def execNot (ra rb rc : RegIdx) (s : State) : Host.Outcome State Fault Refusal :=
  execAlu .not ra rb rc s

/-- COPY `ra, rb` (R148). -/
def execCopy (ra rb rc : RegIdx) (s : State) : Host.Outcome State Fault Refusal :=
  execAlu .copy ra rb rc s

/-- SAL `ra, rb, rc` (R149). -/
def execSal (ra rb rc : RegIdx) (s : State) : Host.Outcome State Fault Refusal :=
  execAlu .sal ra rb rc s

/-- SLL `ra, rb, rc` (R150): "identical semantics" to SAL. -/
def execSll (ra rb rc : RegIdx) (s : State) : Host.Outcome State Fault Refusal :=
  execAlu .sll ra rb rc s

/-- SAR `ra, rb, rc` (R151). -/
def execSar (ra rb rc : RegIdx) (s : State) : Host.Outcome State Fault Refusal :=
  execAlu .sar ra rb rc s

/-- SLR `ra, rb, rc` (R152). -/
def execSlr (ra rb rc : RegIdx) (s : State) : Host.Outcome State Fault Refusal :=
  execAlu .slr ra rb rc s

end Sys2Proof.Machine
end

