-- ==== Sys2Proof/Machine/Control.lean ====
section
/-! DEFINITION. The control transfer instructions: the jumps JAL, JR and J (spec/45_jumps.md), the
branches JEQ and JNE (spec/44_branches.md) and HALT (spec/46_halt.md). No delay slot (R203), no flag
written or read (R32, R33), none can fault. -/

namespace Sys2Proof.Machine

/-- JAL `addr16` (R200): the link is the address after the JAL. -/
def execJal (address : Addr) (s : State) : Host.Outcome State Fault Refusal :=
  .next ((s.writeReg linkReg (linkValue s.npc)).setPc address)

/-- JR `rc` (R201). -/
def execJr (rc : RegIdx) (s : State) : Host.Outcome State Fault Refusal :=
  .next (s.setPc (jumpRegTarget (s.readReg rc)))

/-- J `addr16` (R202). -/
def execJ (address : Addr) (s : State) : Host.Outcome State Fault Refusal :=
  .next (s.setPc address)

/-- A branch whose test came out as `taken` (R190). -/
def branchIf (taken : Bool) (offset : Word) (s : State) : State :=
  s.setPc (if taken then branchTarget s.npc offset else s.npc)

/-- JEQ `ra, rb, offset` (R191): all 32 bits compared. -/
def execJeq (ra rb : RegIdx) (offset : Word) (s : State) : Host.Outcome State Fault Refusal :=
  .next (branchIf (s.readReg ra == s.readReg rb) offset s)

/-- JNE `ra, rb, offset` (R192). -/
def execJne (ra rb : RegIdx) (offset : Word) (s : State) : Host.Outcome State Fault Refusal :=
  .next (branchIf (s.readReg ra != s.readReg rb) offset s)

/-- HALT (R210): mode becomes halted; pc keeps the address of the HALT word (conflict C1). -/
def execHalt (s : State) : Host.Outcome State Fault Refusal :=
  .next (s.setMode .halted)

end Sys2Proof.Machine
end

