-- ==== Sys2Proof/Machine/Transfer.lean ====
section
/-! DEFINITION. The data transfer instructions: the immediate half-word loads LOADH and LOADL
(spec/42_immediate_loads.md) and the load and store LW and SW (spec/43_load_store.md). None writes a
flag (R32), none can fault. -/

namespace Sys2Proof.Machine

/-- LOADH `ra, imm16` (R170). -/
def execLoadh (ra : RegIdx) (imm : Half) (s : State) : Host.Outcome State Fault Refusal :=
  .next ((s.writeReg ra (packHigh imm (s.readReg ra))).setPc s.npc)

/-- LOADL `ra, imm16` (R171). -/
def execLoadl (ra : RegIdx) (imm : Half) (s : State) : Host.Outcome State Fault Refusal :=
  .next ((s.writeReg ra (packLow imm (s.readReg ra))).setPc s.npc)

/-- LW `ra, addr16` (R181). -/
def execLw (ra : RegIdx) (imm : Half) (s : State) : Host.Outcome State Fault Refusal :=
  .next ((s.writeReg ra (s.mem.read (effectiveAddr imm))).setPc s.npc)

/-- SW `ra, addr16` (R182). -/
def execSw (ra : RegIdx) (imm : Half) (s : State) : Host.Outcome State Fault Refusal :=
  .next ((s.writeMem (effectiveAddr imm) (s.readReg ra)).setPc s.npc)

end Sys2Proof.Machine
end

