-- ==== Sys2Proof/Machine/Dispatch.lean ====
section
/-! DEFINITION. One arm per instruction: the state changes its own rule gives it (spec/41_alu.md to
spec/46_halt.md). The common effects of R125 and the run mode are Machine/Step.lean's. -/

namespace Sys2Proof.Machine

def exec (i : Instr) (s : State) : Host.Outcome State Fault Refusal :=
  match i with
  | .halt => Sys2Proof.Machine.execHalt s
  | .add ra rb rc => Sys2Proof.Machine.execAdd ra rb rc s
  | .sub ra rb rc => Sys2Proof.Machine.execSub ra rb rc s
  | .zero ra rb rc => Sys2Proof.Machine.execZero ra rb rc s
  | .xor ra rb rc => Sys2Proof.Machine.execXor ra rb rc s
  | .or ra rb rc => Sys2Proof.Machine.execOr ra rb rc s
  | .and ra rb rc => Sys2Proof.Machine.execAnd ra rb rc s
  | .not ra rb rc => Sys2Proof.Machine.execNot ra rb rc s
  | .copy ra rb rc => Sys2Proof.Machine.execCopy ra rb rc s
  | .sal ra rb rc => Sys2Proof.Machine.execSal ra rb rc s
  | .sll ra rb rc => Sys2Proof.Machine.execSll ra rb rc s
  | .sar ra rb rc => Sys2Proof.Machine.execSar ra rb rc s
  | .slr ra rb rc => Sys2Proof.Machine.execSlr ra rb rc s
  | .loadh ra imm => Sys2Proof.Machine.execLoadh ra imm s
  | .loadl ra imm => Sys2Proof.Machine.execLoadl ra imm s
  | .lw ra imm => Sys2Proof.Machine.execLw ra imm s
  | .sw ra imm => Sys2Proof.Machine.execSw ra imm s
  | .jal address => Sys2Proof.Machine.execJal address s
  | .jr rc => Sys2Proof.Machine.execJr rc s
  | .j address => Sys2Proof.Machine.execJ address s
  | .jeq ra rb offset => Sys2Proof.Machine.execJeq ra rb offset s
  | .jne ra rb offset => Sys2Proof.Machine.execJne ra rb offset s

end Sys2Proof.Machine
end

