-- ==== Sys2Proof/Machine/Step.lean ====
section
/-! DEFINITION. One step (spec/40_step_and_control.md R120 to R127), for any opcode numbering and for
the default one, and the host's way to place an instruction where the step fetches. -/

namespace Sys2Proof.Machine

/-- One step under the numbering `opc` (R120). In mode running: fetch the word at pc, decode it, run
the instruction's own rule and then the common effects (R125); a word the decoder rejects takes the
fault (R126), which is a next state. In mode halted or fault nothing changes (R127). DESIGN CHOICE
(the spec's, D8; safe). Logs 7, 8 and 25. -/
def stepWith (opc : OpcodeMap) (s : State) : Host.Outcome State Fault Refusal :=
  match s.mode with
  | .running =>
    match decodeWith opc s.fetch with
    | none => .next (s.takeFault s.fetch)
    | some i =>
      match exec i s with
      | .next t => .next (t.retire s.fetch)
      | .fault r => .fault r
      | .refused r => .refused r
  | .halted => .next s
  | .fault => .next s

/-- One step under the default numbering. -/
def step (s : State) : Host.Outcome State Fault Refusal := stepWith defaultOpc s

/-- `s` with the instruction whose bits are `w` stored at pc, in mode running, so that the very next
step fetches and runs it. A step fetches in mode running only (R127), so that is set too. Log 26. -/
def State.withFetchWord (s : State) (nbits w : Nat) : State :=
  (s.writeMem s.pc (tableWord nbits w)).setMode .running

end Sys2Proof.Machine
end

