-- ==== Sys2Proof/Machine/HostOps.lean ====
section
/-! DEFINITION. Everything the host can do between steps (spec/70_reset_and_hazards.md R256 to R262;
spec/20_memory.md R51, R66; spec/10_state.md R20). An operation that fails answers its error and no
state: nothing changes (R221). Addresses and register indices are naturals here, so that an index
outside its domain can be written down; values are words (U11). Log 28. -/

namespace Sys2Proof.Machine

/-! ## The memory collaborator (R51, R66) -/

/-- Memory `read(address)`. -/
def hostMemRead (a : Nat) (s : State) : Except Fault Word :=
  if a < memorySize then .ok (s.mem.read (BitVec.ofNat 16 a)) else .error .rangeViolation

/-- Memory `write(address, value)`. -/
def hostMemWrite (a : Nat) (v : Word) (s : State) : Except Fault State :=
  if a < memorySize then .ok (s.writeMem (BitVec.ofNat 16 a) v) else .error .rangeViolation

/-- The words written at consecutive addresses from `start`. -/
def writeWords (m : Memory) (start : Nat) : List Word → Memory
  | [] => m
  | w :: rest => writeWords (m.write (BitVec.ofNat 16 start) w) (start + 1) rest

/-- Memory `load(words, start)`: all or nothing (R259); a start outside 0 to 65535 fails even for no
words (R66, R221). DESIGN CHOICE (the spec's, D21; unsafe): a load that ends exactly at the last word
succeeds. Log 20. -/
def hostMemLoad (words : List Word) (start : Nat) (s : State) : Except Fault State :=
  if start < memorySize ∧ start + words.length ≤ memorySize then
    .ok { s with mem := writeWords s.mem start words }
  else .error .rangeViolation

/-- Memory `clear()`: every word 0. -/
def hostMemClear (s : State) : State := { s with mem := Memory.cleared }

/-- Memory `dump(start, end)`: address and word for each address from `start`; it "fails if
`start > end` or either is out of range" (R51). Whether `end` is included is a FREE VALUE (U6).
Log 20. -/
def hostMemDump (first last : Nat) (s : State) : Except Fault (List (Nat × Word)) :=
  if first ≤ last ∧ last < memorySize then
    .ok ((List.range' first (last - first + (if Config.dumpIncludesEnd then 1 else 0))).map
      (fun a => (a, s.mem.read (BitVec.ofNat 16 a))))
  else .error .rangeViolation

/-! ## The register file collaborator (R20, R21) -/

/-- Register `read(index)`. -/
def hostRegRead (i : Nat) (s : State) : Except Fault Word :=
  if i < registerCount then .ok (s.readReg (BitVec.ofNat 5 i)) else .error .rangeViolation

/-- Register `write(index, value)`; index 0 is a no-op. -/
def hostRegWrite (i : Nat) (v : Word) (s : State) : Except Fault State :=
  if i < registerCount then .ok (s.writeReg (BitVec.ofNat 5 i) v) else .error .rangeViolation

/-- Register `clear()`: every register 0. -/
def hostRegClear (s : State) : State := { s with regs := Vector.replicate 32 0 }

/-- Register `dump()`: index and value for each register. -/
def hostRegDump (s : State) : List (Nat × Word) :=
  (List.range registerCount).map (fun i => (i, s.readReg (BitVec.ofNat 5 i)))

/-! ## The flags (R256, R260) -/

/-- Flags get by name. -/
def hostFlagGet (name : String) (s : State) : Except Fault Bool :=
  match flagByName s.flags name with
  | some v => .ok v
  | none => .error (.unknownFlag name)

/-- Flags set by name. -/
def hostFlagSet (name : String) (v : Bool) (s : State) : Except Fault State :=
  match setFlagByName s.flags name v with
  | some f => .ok (s.setFlags f)
  | none => .error (.unknownFlag name)

/-- Flags `clear()`: all four false. -/
def hostFlagsClear (s : State) : State := s.setFlags Flags.clear

/-! ## step, run, reset (R250, R257, R258) -/

/-- The source's `halted` boolean: `mode = halted` (R27, D20). Log 19. -/
def hostHalted (s : State) : Bool := decide (s.mode = .halted)

/-- The error a step from `s` raises, if any (R224). -/
def stepError (opc : OpcodeMap) (s : State) : Option Fault :=
  match s.mode with
  | .running =>
    match decodeWith opc s.fetch with
    | none => some (.unrecognizedOpcode s.fetch)
    | some _ => none
  | .halted => none
  | .fault => none

/-- `step()`: the state after it and the error it returns (R257). A step always answers a next state
(R127), so the other outcomes leave the state as it is. -/
def hostStep (opc : OpcodeMap) (s : State) : State × Option Fault :=
  match stepWith opc s with
  | .next t => (t, stepError opc s)
  | .fault _ => (s, stepError opc s)
  | .refused _ => (s, stepError opc s)

/-- `run(max_cycles)`: steps until halted, faulted, or that many steps made by this call (R258).
DESIGN CHOICE (the spec's, D16; unsafe). Log 15. -/
def hostRun (opc : OpcodeMap) : Nat → State → State × Option Fault
  | 0, s => (s, none)
  | n + 1, s =>
    match s.mode with
    | .running =>
      match hostStep opc s with
      | (t, none) => hostRun opc n t
      | (t, some e) => (t, some e)
    | .halted => (s, none)
    | .fault => (s, none)

/-- `reset` (R250). -/
def hostReset (s : State) : State := s.applyReset

/-! ## Boot (R253, R254) -/

/-- The open parameter `ENTRY_PC`, default 0. DESIGN CHOICE (the spec's, D12; unsafe). Log 12. -/
def entryPc : Addr := 0

/-- The launch state: the reset state, the program loaded at `start`, then pc at `entry` (R253,
R254). -/
def launchAt (entry : Addr) (words : List Word) (start : Nat) : Except Fault State :=
  (hostMemLoad words start State.reset).map (fun s => s.setPc entry)

/-- The launch state with the default entry. -/
def launch (words : List Word) (start : Nat) : Except Fault State := launchAt entryPc words start

end Sys2Proof.Machine
end

