-- ==== Sys2Proof/Machine/ControlUnit.lean ====
section
/-! DEFINITION. The control-signal unit (spec/40_step_and_control.md R113 to R118): from the decoder's
record to ten signals. The signals are produced fresh for each word and are no state (R113). -/

namespace Sys2Proof.Machine

/-- `alu_src` (R113). -/
inductive AluSrc where
  | reg
  | imm
  deriving DecidableEq, Repr

/-- `pc_src` (R113). -/
inductive PcSrc where
  | inc
  | jump
  | branch
  | halt
  deriving DecidableEq, Repr

/-- The ten control signals (R113); `aluOp` is absent for "none". -/
structure ControlSignals where
  aluOp : Option AluOp
  regWrite : Bool
  memRead : Bool
  memWrite : Bool
  memToReg : Bool
  branch : Bool
  jump : Bool
  aluSrc : AluSrc
  pcSrc : PcSrc
  halt : Bool
  deriving DecidableEq, Repr

/-- A record with every signal off and pc taking npc, from which each row of R115 is made. -/
def idleSignals : ControlSignals :=
  { aluOp := none, regWrite := false, memRead := false, memWrite := false, memToReg := false,
    branch := false, jump := false, aluSrc := .reg, pcSrc := .inc, halt := false }

/-- The row "ALU ops" of R115. -/
def aluSignals (op : AluOp) : ControlSignals :=
  { idleSignals with aluOp := some op, regWrite := true }

/-- The row "LOADH, LOADL" of R115. -/
def immediateLoadSignals : ControlSignals :=
  { idleSignals with regWrite := true, aluSrc := .imm }

/-- The row "JEQ, JNE" of R115. -/
def branchSignals : ControlSignals :=
  { idleSignals with branch := true, pcSrc := .branch }

/-- The row of HALT in R115. DESIGN CHOICE (the spec's, D9; unsafe): the `halt` column, R114. Log 9. -/
def haltSignals : ControlSignals :=
  { idleSignals with pcSrc := .halt, halt := true }

/-- The signal table of R115, by opcode. -/
def opcodeSignals : Opcode → ControlSignals
  | .add => aluSignals .add
  | .sub => aluSignals .sub
  | .zero => aluSignals .zero
  | .xor => aluSignals .xor
  | .or => aluSignals .or
  | .and => aluSignals .and
  | .not => aluSignals .not
  | .copy => aluSignals .copy
  | .sal => aluSignals .sal
  | .sll => aluSignals .sll
  | .sar => aluSignals .sar
  | .slr => aluSignals .slr
  | .loadh => immediateLoadSignals
  | .loadl => immediateLoadSignals
  | .lw => { idleSignals with regWrite := true, memRead := true, memToReg := true, aluSrc := .imm }
  | .sw => { idleSignals with memWrite := true, aluSrc := .imm }
  | .jal => { idleSignals with regWrite := true, jump := true, pcSrc := .jump }
  | .jr => { idleSignals with jump := true, pcSrc := .jump }
  | .j => { idleSignals with jump := true, pcSrc := .jump }
  | .jeq => branchSignals
  | .jne => branchSignals

/-- The signals of an instruction (R115). -/
def signalsOf (i : Instr) : ControlSignals :=
  match i.opcode with
  | none => haltSignals
  | some m => opcodeSignals m

/-- The control unit on a decoded record (R113, R115): it "Fails with "opcode not recognized" if the
opcode/format combination matches none of the above" (R116). -/
def controlUnit (opc : OpcodeMap) (d : Decoded) : Except Fault ControlSignals :=
  match d.opByte with
  | none => .ok haltSignals
  | some b =>
    match lookupOpcode opc b with
    | none => .error (.controlOpcodeNotRecognized d)
    | some m =>
      if m.format = d.format then .ok (opcodeSignals m)
      else .error (.controlOpcodeNotRecognized d)

end Sys2Proof.Machine
end

