-- ==== Sys2Proof/Machine/Ports.lean ====
section
/-! DEFINITION. The hardware boundary the spec gives the block (spec/70_reset_and_hazards.md R251, R263,
R264): the output ports as functions of the state, and the clock edge as a datapath steered by the
control signals alone (R117, R118, R122 to R124), written without the instructions' own meanings.
DESIGN CHOICE (the spec's, D10; unsafe): one rising edge is one step. Log 10. -/

namespace Sys2Proof.Machine

/-- The record of the word at pc, absent when the decoder rejects it. -/
def currentRecord (opc : OpcodeMap) (s : State) : Option Decoded := decodeRecordWith opc s.fetch

/-- `ctrl_o`: the control unit's output for the current word; absent for a word the decoder rejects,
for which R113 gives no record. Log 27. -/
def ctrlPort (opc : OpcodeMap) (s : State) : Option ControlSignals :=
  match currentRecord opc s with
  | none => none
  | some d =>
    match controlUnit opc d with
    | .ok c => some c
    | .error _ => none

/-- Whether the current word has format `f`. -/
def currentFormatIs (opc : OpcodeMap) (s : State) (f : Format) : Bool :=
  match currentRecord opc s with
  | none => false
  | some d => decide (d.format = f)

/-- Whether the current word is the instruction with mnemonic `m` (R118: "The datapath therefore also
uses the opcode"). -/
def currentOpcodeIs (opc : OpcodeMap) (s : State) (m : Opcode) : Bool :=
  match currentRecord opc s with
  | none => false
  | some d => decide (d.opByte.bind (lookupOpcode opc) = some m)

/-- A boolean signal of the current word, false when there is none ("gated by no fault", R263). -/
def gated (opc : OpcodeMap) (s : State) (f : ControlSignals → Bool) : Bool :=
  match ctrlPort opc s with
  | none => false
  | some c => f c

/-- `imem_addr` = pc. -/
def imemAddrPort (s : State) : Addr := s.pc

/-- `dmem_addr` = the word's immediate field, `w[18:3]`. -/
def dmemAddrPort (s : State) : Addr := immField s.fetch

/-- `dmem_re` = `mem_read`. -/
def dmemRePort (opc : OpcodeMap) (s : State) : Bool := gated opc s (·.memRead)

/-- `dmem_we` = `mem_write`, gated by no fault. -/
def dmemWePort (opc : OpcodeMap) (s : State) : Bool := gated opc s (·.memWrite)

/-- `dmem_rdata`, the data memory's combinational read. -/
def dmemRdataPort (s : State) : Word := s.mem.read (dmemAddrPort s)

/-- `dmem_wdata` = `x[ra]`. -/
def dmemWdataPort (s : State) : Word := s.readReg (raField s.fetch)

/-- `rf_raddr1`: rb for format R, else `w[23:19]`. -/
def rfRaddr1Port (opc : OpcodeMap) (s : State) : RegIdx :=
  if currentFormatIs opc s .r then rbField s.fetch else raField s.fetch

/-- `rf_raddr2`: rc for format R, rb for format B; a FREE VALUE for the formats the port table does
not name. Log 10. -/
def rfRaddr2Port (opc : OpcodeMap) (s : State) : RegIdx :=
  if currentFormatIs opc s .r then rcField s.fetch
  else if currentFormatIs opc s .b then rbField s.fetch
  else Config.idleRaddr2 s.fetch

/-- `rf_rdata1` = `x[rf_raddr1]`. -/
def rfRdata1Port (opc : OpcodeMap) (s : State) : Word := s.readReg (rfRaddr1Port opc s)

/-- `rf_rdata2` = `x[rf_raddr2]`. -/
def rfRdata2Port (opc : OpcodeMap) (s : State) : Word := s.readReg (rfRaddr2Port opc s)

/-- `rf_we` = `reg_write`, gated by no fault. -/
def rfWePort (opc : OpcodeMap) (s : State) : Bool := gated opc s (·.regWrite)

/-- `rf_waddr`: 31 for JAL, else `w[23:19]`. -/
def rfWaddrPort (opc : OpcodeMap) (s : State) : RegIdx :=
  if currentOpcodeIs opc s .jal then linkReg else raField s.fetch

/-- The ALU's output for the current word, when `alu_op` is set (R123). -/
def aluPort (opc : OpcodeMap) (s : State) : Option AluOut :=
  match ctrlPort opc s with
  | none => none
  | some c => c.aluOp.map (fun op => alu op (rfRdata1Port opc s) (rfRdata2Port opc s))

/-- `rf_wdata`, the step's result: the ALU result, the loaded word, the link value or the packed
half-word (R124); a FREE VALUE when the step writes no register. Log 10. -/
def rfWdataPort (opc : OpcodeMap) (s : State) : Word :=
  match aluPort opc s with
  | some out => out.result
  | none =>
    if gated opc s (·.memToReg) then dmemRdataPort s
    else if currentOpcodeIs opc s .jal then linkValue s.npc
    else if currentOpcodeIs opc s .loadh then packHigh (immField s.fetch) (rfRdata1Port opc s)
    else if currentOpcodeIs opc s .loadl then packLow (immField s.fetch) (rfRdata1Port opc s)
    else Config.idleWdata s.fetch

/-- The output ports of R263; `rf_rdata1`, `rf_rdata2`, `imem_rdata` and `dmem_rdata` are inputs. -/
structure PortsOut where
  imemAddr : Addr
  dmemAddr : Addr
  dmemRe : Bool
  dmemWe : Bool
  dmemWdata : Word
  rfRaddr1 : RegIdx
  rfRaddr2 : RegIdx
  rfWe : Bool
  rfWaddr : RegIdx
  rfWdata : Word
  pcO : Addr
  irO : Word
  haltedO : Bool
  faultO : Bool
  flagN : Bool
  flagZ : Bool
  flagC : Bool
  flagV : Bool
  cycleCountO : Nat
  instructionCountO : Nat
  ctrlO : Option ControlSignals
  deriving DecidableEq, Repr

/-- What the block shows on its output ports in state `s` (R263). -/
def portsOut (opc : OpcodeMap) (s : State) : PortsOut where
  imemAddr := imemAddrPort s
  dmemAddr := dmemAddrPort s
  dmemRe := dmemRePort opc s
  dmemWe := dmemWePort opc s
  dmemWdata := dmemWdataPort s
  rfRaddr1 := rfRaddr1Port opc s
  rfRaddr2 := rfRaddr2Port opc s
  rfWe := rfWePort opc s
  rfWaddr := rfWaddrPort opc s
  rfWdata := rfWdataPort opc s
  pcO := s.pc
  irO := s.ir
  haltedO := decide (s.mode = .halted)
  faultO := decide (s.mode = .fault)
  flagN := s.flags.negative
  flagZ := s.flags.zero
  flagC := s.flags.carry
  flagV := s.flags.overflow
  cycleCountO := s.cycleCount
  instructionCountO := s.instructionCount
  ctrlO := ctrlPort opc s

/-- The target when `pc_src` is `jump`: JR's from the register, else the address field (R118). -/
def jumpTargetPort (opc : OpcodeMap) (s : State) : Addr :=
  if currentFormatIs opc s .jr then jumpRegTarget (rfRdata1Port opc s) else addrField s.fetch

/-- Whether the current branch is taken: equal for JEQ, different for JNE (R118, R190). -/
def takenPort (opc : OpcodeMap) (s : State) : Bool :=
  if currentOpcodeIs opc s .jeq then rfRdata1Port opc s == rfRdata2Port opc s
  else rfRdata1Port opc s != rfRdata2Port opc s

/-- The value pc takes at the edge, by `pc_src` (R117). -/
def nextPcPort (opc : OpcodeMap) (s : State) (c : ControlSignals) : Addr :=
  match c.pcSrc with
  | .inc => s.npc
  | .jump => jumpTargetPort opc s
  | .branch => if takenPort opc s then branchTarget s.npc (offsetField s.fetch) else s.npc
  | .halt => s.pc

/-- The state every write enable of the current word commits at the edge; reads see the state before
it (R264). -/
def commitEdge (opc : OpcodeMap) (s : State) : State :=
  match ctrlPort opc s with
  | none => { s with ir := s.fetch, mode := .fault }
  | some c =>
    { regs := if rfWePort opc s then (s.writeReg (rfWaddrPort opc s) (rfWdataPort opc s)).regs
        else s.regs
      pc := nextPcPort opc s c
      ir := s.fetch
      mode := if c.halt then .halted else s.mode
      flags := match aluPort opc s with
        | some out => flagsOf out
        | none => s.flags
      cycleCount := s.cycleCount + 1
      instructionCount := s.instructionCount + 1
      mem := if dmemWePort opc s then s.mem.write (dmemAddrPort s) (dmemWdataPort s) else s.mem }

/-- One rising edge of `clk` with the inputs `rst` and `step_en` (R251, R263): reset first; else a step
is committed when `step_en` is 1 and the mode is running; else nothing changes. DESIGN CHOICE (unsafe):
`rst` wins over `step_en`. Log 11. -/
def clockEdge (opc : OpcodeMap) (rst stepEn : Bool) (s : State) : State :=
  if rst then State.reset
  else if stepEn && decide (s.mode = .running) then commitEdge opc s
  else s

end Sys2Proof.Machine
end

