-- ==== Sys2Proof/Safety.lean ====
section
/-! DEFINITION. The terms in which statements speak of safe states and runs: the invariant of the
machine, what two states share, and how a run ends (spec/70_reset_and_hazards.md R270). -/

namespace Sys2Proof.Machine

/-- The invariant every step keeps: the memory is in canonical form (so it has words of R50's space
only), the unread slot of register 0 holds 0, and the two counters are equal (R269). -/
structure State.Inv (s : State) : Prop where
  memWf : s.mem.wf = true
  slotZero : s.regs[0] = 0
  countersEqual : s.cycleCount = s.instructionCount

/-- Every register but those listed reads the same in both states. -/
def SameRegsBut (rs : List RegIdx) (s t : State) : Prop :=
  ∀ r, r ∉ rs → t.readReg r = s.readReg r

/-- Every memory word but those at the listed addresses reads the same in both states. -/
def SameMemBut (as : List Addr) (s t : State) : Prop :=
  ∀ a, a ∉ as → t.mem.read a = s.mem.read a

/-- Mode, ir and both counters are the same: what no instruction rule but HALT's touches. -/
def SameControl (s t : State) : Prop :=
  t.mode = s.mode ∧ t.ir = s.ir ∧ t.cycleCount = s.cycleCount ∧
    t.instructionCount = s.instructionCount

/-- Register `d` gets `v`, unless `d` is register 0, whose writes are discarded (R21); every other
register reads as before. -/
def WritesReg (d : RegIdx) (v : Word) (s t : State) : Prop :=
  ∀ r, t.readReg r = if r = d ∧ d ≠ 0#5 then v else s.readReg r

/-- The effect R154 gives an ALU instruction whose carry and overflow outputs are false: `v` goes to
`ra`, N and Z follow `v`, C and V are cleared, pc becomes npc, and nothing else changes. -/
def LogicEffect (ra : RegIdx) (v : Word) (s t : State) : Prop :=
  WritesReg ra v s t ∧
    t.flags = { negative := v.getLsbD 31, zero := decide (v = 0), carry := false,
                overflow := false } ∧
    t.pc = s.pc + 1 ∧ SameMemBut [] s t ∧ SameControl s t

/-- The effect of an instruction that writes `v` to `ra`, no flag, and takes npc (R170, R171, R181). -/
def LoadEffect (ra : RegIdx) (v : Word) (s t : State) : Prop :=
  WritesReg ra v s t ∧ t.flags = s.flags ∧ t.pc = s.pc + 1 ∧ SameMemBut [] s t ∧ SameControl s t

/-- Nothing but pc differs: what a jump without link or a branch leaves (R190, R201, R202). -/
def OnlyPcDiffers (s t : State) : Prop :=
  SameRegsBut [] s t ∧ t.flags = s.flags ∧ SameMemBut [] s t ∧ SameControl s t

/-- The effect of a branch whose test is `test` (R190). -/
def BranchEffect (test : Prop) (offset : Word) (s t : State) : Prop :=
  (test → (t.pc.toNat : Int) = ((s.pc.toNat : Int) + 1 + offset.toInt) % 65536) ∧
    (¬ test → (t.pc.toNat : Int) = ((s.pc.toNat : Int) + 1) % 65536) ∧ OnlyPcDiffers s t

/-- An exact signed value fits in 32 bits, two's complement (R157). -/
def FitsSigned (x : Int) : Prop := -2 ^ 31 ≤ x ∧ x < 2 ^ 31

/-- Two states that a program cannot tell apart: registers, memory, pc and mode agree; ir, the flags
and the counters may differ (R27, R33). -/
def ProgramEquiv (s t : State) : Prop :=
  (∀ r, s.readReg r = t.readReg r) ∧ (∀ a, s.mem.read a = t.mem.read a) ∧ s.pc = t.pc ∧
    s.mode = t.mode

/-- A run of at most `n` steps from `s` ends well: mode becomes halted (R270). -/
def EndsWell (opc : OpcodeMap) (n : Nat) (s : State) : Prop := (hostRun opc n s).1.mode = .halted

/-- A run of at most `n` steps from `s` ends badly: mode becomes fault (R270). -/
def EndsBadly (opc : OpcodeMap) (n : Nat) (s : State) : Prop := (hostRun opc n s).1.mode = .fault

end Sys2Proof.Machine
end

