-- ==== Sys2Proof/Certificates/Slice0/Obligations.lean ====
section
/-! DEFINITION. The statements for the provers, by the spec's rules. Each docstring names the rule it
formalises; where a clause rests on a choice the spec marks as its own ("decision") it names the log
entry. -/

open Sys2Proof Sys2Proof.Machine

/-! ## Decoding and encoding -/

/-- R86 (the round-trip property; the canonical encoding is the spec's choice D23, log 22; default
numbering, log 1). -/
def Obligations.DecodeOfEncodeIsTheInstruction : Prop :=
  ∀ i : Instr, i.wf = true → decode (encode i) = some i

/-- R86 and R90 for every injective numbering (D1, D23, logs 1 and 22). The one encoding that does not
come back is a branch whose word is the sentinel, under a numbering that assigns 0xFF to it (R90). -/
def Obligations.RoundTripUnderEveryNumbering : Prop :=
  ∀ opc : OpcodeMap, opcWellFormed opc = true → ∀ i : Instr, i.wf = true →
    (i = .halt ∨ encodeWith opc i ≠ 0xFFFFFFFF#32) → decodeWith opc (encodeWith opc i) = some i

/-- R81, R82, R86: a decoded instruction is well formed and its canonical encoding is the word with the
unused bits cleared, for every numbering. The treatment of unused bits is the spec's choice (D2, D23,
logs 2 and 22). -/
def Obligations.DecodedWordReencodesToItsUsedBits : Prop :=
  ∀ (opc : OpcodeMap) (w : Word) (i : Instr), decodeWith opc w = some i →
    i.wf = true ∧ encodeWith opc i = w &&& i.format.usedBits

/-- R82: two words, neither the sentinel, that differ in unused bits only decode alike. The spec's
choice (D2, log 2). -/
def Obligations.DecodeIgnoresUnusedBits : Prop :=
  ∀ (opc : OpcodeMap) (w w' : Word) (i : Instr), w ≠ 0xFFFFFFFF#32 → w' ≠ 0xFFFFFFFF#32 →
    decodeWith opc w = some i → w' &&& i.format.usedBits = w &&& i.format.usedBits →
    decodeWith opc w' = some i

/-- R89: the decoder answers HALT for the all-ones word alone, before any lookup; every other word goes
to the opcode lookup. -/
def Obligations.OnlyTheSentinelIsHalt : Prop :=
  ∀ (opc : OpcodeMap) (w : Word),
    (decodeWith opc w = some .halt ↔ w = 0xFFFFFFFF#32) ∧
    decodeRecordWith opc 0xFFFFFFFF#32 = some .halt ∧
    (w ≠ 0xFFFFFFFF#32 →
      decodeWith opc w = (lookupOpcode opc (w.extractLsb' 24 8)).map (fun m => fieldsOf m w))

/-- R112, R81: the decode algorithm from the word to the tagged record, its bit ranges written out, for
every injective numbering. -/
def Obligations.DecoderFollowsTheAlgorithm : Prop :=
  ∀ opc : OpcodeMap, opcWellFormed opc = true → ∀ w : Word,
    (w = 0xFFFFFFFF#32 → decodeRecordWith opc w = some .halt) ∧
    (w ≠ 0xFFFFFFFF#32 → (∀ m, opc m ≠ w.extractLsb' 24 8) → decodeRecordWith opc w = none) ∧
    (w ≠ 0xFFFFFFFF#32 → ∀ m, opc m = w.extractLsb' 24 8 →
      decodeRecordWith opc w = some (match m.format with
        | .r => .r (opc m) (w.extractLsb' 19 5) (w.extractLsb' 14 5) (w.extractLsb' 9 5)
        | .i => .i (opc m) (w.extractLsb' 19 5) (w.extractLsb' 3 16)
        | .j => .j (opc m) (w.extractLsb' 8 16)
        | .jr => .jr (opc m) (w.extractLsb' 19 5)
        | .b => .b (opc m) (w.extractLsb' 19 5) (w.extractLsb' 14 5)
            ((w.extractLsb' 0 14).signExtend 32)
        | .halt => .halt))

/-- R91 and R40 under the default numbering (D1, log 1): the rejected words are those whose opcode byte
is 0x00 or from 0x16 up, the sentinel excepted. -/
def Obligations.DefaultNumberingRejectsTheOtherBytes : Prop :=
  ∀ w : Word, decode w = none ↔
    (w ≠ 0xFFFFFFFF#32 ∧ (w.toNat / 2 ^ 24 = 0 ∨ 0x16 ≤ w.toNat / 2 ^ 24))

/-- R81, R88 on words of spec/95_test_vectors.md, one for each format (default numbering, log 1). -/
def Obligations.WrittenOutWordsDecode : Prop :=
  decode 0x01104200#32 = some (.add 2 1 1) ∧ decode 0x02184400#32 = some (.sub 3 1 2) ∧
  decode 0x0D0891A0#32 = some (.loadh 1 0x1234) ∧ decode 0x0F200800#32 = some (.lw 4 0x0100) ∧
  decode 0x11004000#32 = some (.jal 0x0040) ∧ decode 0x12F80000#32 = some (.jr 31) ∧
  decode 0x15083FFD#32 = some (.jne 1 0 0xFFFFFFFD) ∧ decode 0xFFFFFFFF#32 = some .halt

/-- R85: the decoder hands on the branch offset as the two's-complement value of `w[13:0]`, unscaled,
-8192 to 8191, and it is added to the incremented pc. -/
def Obligations.BranchOffsetIsSignExtendedInDecode : Prop :=
  ∀ (opc : OpcodeMap) (w : Word) (ra rb : RegIdx) (offset : Word),
    (decodeWith opc w = some (.jeq ra rb offset) ∨ decodeWith opc w = some (.jne ra rb offset)) →
    offset.toInt = (if w.getLsbD 13 then ((w.toNat % 2 ^ 14 : Nat) : Int) - 2 ^ 14
      else ((w.toNat % 2 ^ 14 : Nat) : Int)) ∧
    -8192 ≤ offset.toInt ∧ offset.toInt ≤ 8191 ∧
    ∀ s : State, ∃ t, exec (.jeq ra ra offset) s = .next t ∧
      (t.pc.toNat : Int) = (((s.pc + 1).toNat : Int) + offset.toInt) % 65536

/-! ## The ALU and the flags -/

/-- R157: the sums are word arithmetic, carry is the unsigned outcome, overflow the signed one. R157
marks these closed forms as derived from R141 and R142. -/
def Obligations.AluCarryIsUnsignedAndOverflowIsSigned : Prop :=
  ∀ a b : Word,
    (alu .add a b).result = a + b ∧
    ((alu .add a b).carry = true ↔ 2 ^ 32 ≤ a.toNat + b.toNat) ∧
    ((alu .add a b).overflow = true ↔ ¬ FitsSigned (a.toInt + b.toInt)) ∧
    (alu .sub a b).result = a - b ∧
    ((alu .sub a b).carry = true ↔ a.toNat < b.toNat) ∧
    ((alu .sub a b).overflow = true ↔ ¬ FitsSigned (a.toInt - b.toInt))

/-- R155: each shift moves the bits by the low five bits of the second operand; the other 27 bits play
no part and an amount of 0 gives `a`. -/
def Obligations.ShiftsUseTheLowFiveBits : Prop :=
  ∀ a b : Word,
    (∀ k, k < 32 → (alu .sal a b).result.getLsbD k =
      (decide (b.toNat % 32 ≤ k) && a.getLsbD (k - b.toNat % 32))) ∧
    (∀ k, k < 32 → (alu .sll a b).result.getLsbD k =
      (decide (b.toNat % 32 ≤ k) && a.getLsbD (k - b.toNat % 32))) ∧
    (∀ k, k < 32 → (alu .sar a b).result.getLsbD k =
      if k + b.toNat % 32 < 32 then a.getLsbD (k + b.toNat % 32) else a.getLsbD 31) ∧
    (∀ k, k < 32 → (alu .slr a b).result.getLsbD k =
      if k + b.toNat % 32 < 32 then a.getLsbD (k + b.toNat % 32) else false) ∧
    (∀ op, op ∈ [AluOp.sal, AluOp.sll, AluOp.sar, AluOp.slr] → b.toNat % 32 = 0 →
      (alu op a b).result = a)

/-- R153: after every ALU instruction, and after no other, the four flags are those of its ALU triple:
Z says the result is 0, N is its bit 31, C and V are copied. -/
def Obligations.FlagsAreUpdatedFromTheAluTriple : Prop :=
  (∀ (result : Word) (c v : Bool), flagsOf ⟨result, c, v⟩ =
    { negative := result.getLsbD 31, zero := decide (result = 0), carry := c, overflow := v }) ∧
  ∀ (i : Instr) (s t : State), exec i s = .next t →
    (∀ op, (signalsOf i).aluOp = some op → ∃ rb rc a b, sourceRegs i = [rb, rc] ∧
      ((a = s.readReg rb ∧ b = s.readReg rc) ∨ (a = s.readReg rc ∧ b = s.readReg rb)) ∧
      t.flags = flagsOf (alu op a b) ∧
      ∀ d, destReg i = some d → d ≠ 0#5 → t.readReg d = (alu op a b).result) ∧
    ((signalsOf i).aluOp = none → t.flags = s.flags)

/-- R156: the ALU block called by opcode byte fails exactly for the bytes outside the twelve, under
every injective numbering. -/
def Obligations.AluBlockFailsOutsideTheTwelve : Prop :=
  ∀ opc : OpcodeMap, opcWellFormed opc = true → ∀ (b : OpByte) (x y : Word),
    (∀ m op, aluOpOf m = some op → b = opc m → aluByCode opc b x y = .ok (alu op x y)) ∧
    ((∀ m, (aluOpOf m).isSome = true → b ≠ opc m) →
      aluByCode opc b x y = .error (.invalidAluOpcode b))

/-! ## What each instruction does -/

/-- R141, R154: ADD completes in every state, with its result, all four flags and its frame. -/
def Obligations.AddResultFlagsAndFrame : Prop :=
  ∀ (ra rb rc : RegIdx) (s : State), ∃ t, exec (.add ra rb rc) s = .next t ∧
    WritesReg ra (s.readReg rb + s.readReg rc) s t ∧
    t.flags.zero = decide (s.readReg rb + s.readReg rc = 0) ∧
    t.flags.negative = (s.readReg rb + s.readReg rc).getLsbD 31 ∧
    (t.flags.carry = true ↔ (s.readReg rb).toNat + (s.readReg rc).toNat > 0xFFFFFFFF) ∧
    (t.flags.overflow = true ↔ ((s.readReg rb).getLsbD 31 = (s.readReg rc).getLsbD 31 ∧
      (s.readReg rb + s.readReg rc).getLsbD 31 ≠ (s.readReg rb).getLsbD 31)) ∧
    t.pc = s.pc + 1 ∧ SameMemBut [] s t ∧ SameControl s t

/-- R142, R154: SUB completes in every state; the carry is a borrow. The operand order `x[rb] - x[rc]`
is the spec's choice (D3, log 3). -/
def Obligations.SubResultFlagsAndFrame : Prop :=
  ∀ (ra rb rc : RegIdx) (s : State), ∃ t, exec (.sub ra rb rc) s = .next t ∧
    WritesReg ra (s.readReg rb - s.readReg rc) s t ∧
    t.flags.zero = decide (s.readReg rb = s.readReg rc) ∧
    t.flags.negative = (s.readReg rb - s.readReg rc).getLsbD 31 ∧
    (t.flags.carry = true ↔ (s.readReg rb).toNat < (s.readReg rc).toNat) ∧
    (t.flags.overflow = true ↔ ((s.readReg rb).getLsbD 31 ≠ (s.readReg rc).getLsbD 31 ∧
      (s.readReg rb - s.readReg rc).getLsbD 31 ≠ (s.readReg rb).getLsbD 31)) ∧
    t.pc = s.pc + 1 ∧ SameMemBut [] s t ∧ SameControl s t

/-- R143, R154: ZERO completes in every state, whatever its ignored fields. -/
def Obligations.ZeroResultFlagsAndFrame : Prop :=
  ∀ (ra rb rc : RegIdx) (s : State), ∃ t, exec (.zero ra rb rc) s = .next t ∧
    LogicEffect ra 0 s t ∧
    t.flags = { negative := false, zero := true, carry := false, overflow := false }

/-- R144 to R146, R154: XOR, OR and AND complete in every state. C and V false is the spec's choice
(D4, log 4). -/
def Obligations.BitwiseResultFlagsAndFrame : Prop :=
  ∀ (i : Instr) (ra rb rc : RegIdx) (f : Bool → Bool → Bool) (s : State),
    ((i = .xor ra rb rc ∧ f = Bool.xor) ∨ (i = .or ra rb rc ∧ f = Bool.or) ∨
      (i = .and ra rb rc ∧ f = Bool.and)) →
    ∃ t v, exec i s = .next t ∧ LogicEffect ra v s t ∧
      ∀ k, k < 32 → v.getLsbD k = f ((s.readReg rb).getLsbD k) ((s.readReg rc).getLsbD k)

/-- R147, R148, R154: NOT and COPY complete in every state and ignore `x[rc]`. C and V false is the
spec's choice (D4, log 4), and that `a` is `x[rb]` (D3, log 3). -/
def Obligations.NotAndCopyResultFlagsAndFrame : Prop :=
  ∀ (ra rb rc : RegIdx) (s : State),
    (∃ t, exec (.not ra rb rc) s = .next t ∧ LogicEffect ra (0xFFFFFFFF#32 - s.readReg rb) s t) ∧
    (∃ t, exec (.copy ra rb rc) s = .next t ∧ LogicEffect ra (s.readReg rb) s t)

/-- R149, R150, R154, R155: SAL and SLL complete in every state and multiply by the power of two that
the amount names, modulo 2^32. C and V false is the spec's choice (D4, log 4), and that `x[rc]` is the
amount (D3, log 3). -/
def Obligations.LeftShiftsMultiply : Prop :=
  ∀ (i : Instr) (ra rb rc : RegIdx) (s : State), (i = .sal ra rb rc ∨ i = .sll ra rb rc) →
    ∃ t v, exec i s = .next t ∧ LogicEffect ra v s t ∧
      v.toNat = (s.readReg rb).toNat * 2 ^ ((s.readReg rc).toNat % 32) % 2 ^ 32

/-- R151, R152, R154, R155: SAR and SLR complete in every state and divide, rounding down, the signed
and the unsigned value by the power of two that the amount names. C and V false is the spec's choice
(D4, log 4), and that `x[rc]` is the amount (D3, log 3). -/
def Obligations.RightShiftsDivide : Prop :=
  ∀ (ra rb rc : RegIdx) (s : State),
    (∃ t v, exec (.sar ra rb rc) s = .next t ∧ LogicEffect ra v s t ∧
      v.toInt = (s.readReg rb).toInt / 2 ^ ((s.readReg rc).toNat % 32)) ∧
    (∃ t v, exec (.slr ra rb rc) s = .next t ∧ LogicEffect ra v s t ∧
      v.toNat = (s.readReg rb).toNat / 2 ^ ((s.readReg rc).toNat % 32))

/-- R170, R171: LOADH and LOADL complete in every state, replace one half of `x[ra]`, keep the other and
write no flag. -/
def Obligations.HalfWordLoadsReplaceOneHalf : Prop :=
  ∀ (ra : RegIdx) (imm : Half) (s : State),
    (∃ t v, exec (.loadh ra imm) s = .next t ∧ LoadEffect ra v s t ∧
      v.toNat = imm.toNat * 2 ^ 16 + (s.readReg ra).toNat % 2 ^ 16) ∧
    (∃ t v, exec (.loadl ra imm) s = .next t ∧ LoadEffect ra v s t ∧
      v.toNat = (s.readReg ra).toNat / 2 ^ 16 * 2 ^ 16 + imm.toNat)

/-- R95: LOADH then LOADL, in either order, loads any constant into any register but r0, whatever it
held. -/
def Obligations.TwoHalfLoadsMakeAConstant : Prop :=
  ∀ (ra : RegIdx) (k : Word) (s : State), ra ≠ 0#5 →
    (∃ t u, exec (.loadh ra (k.extractLsb' 16 16)) s = .next t ∧
      exec (.loadl ra (k.extractLsb' 0 16)) t = .next u ∧ u.readReg ra = k) ∧
    (∃ t u, exec (.loadl ra (k.extractLsb' 0 16)) s = .next t ∧
      exec (.loadh ra (k.extractLsb' 16 16)) t = .next u ∧ u.readReg ra = k)

/-- R180, R181: LW completes in every state and loads the word at the immediate address; no register
takes part in the address, no flag is written. -/
def Obligations.LwLoadsTheWordAtTheImmediate : Prop :=
  ∀ (ra : RegIdx) (imm : Half) (s : State), ∃ t, exec (.lw ra imm) s = .next t ∧
    LoadEffect ra (s.mem.read imm) s t

/-- R180, R182: SW completes in every state and stores `x[ra]` at the immediate address and nowhere
else; no register and no flag changes. -/
def Obligations.SwStoresAtTheImmediateOnly : Prop :=
  ∀ (ra : RegIdx) (imm : Half) (s : State), ∃ t, exec (.sw ra imm) s = .next t ∧
    t.mem.read (effectiveAddr imm) = s.readReg ra ∧ effectiveAddr imm = imm ∧
    SameMemBut [effectiveAddr imm] s t ∧ SameRegsBut [] s t ∧ t.flags = s.flags ∧
    t.pc = s.pc + 1 ∧ SameControl s t

/-- R200, R22: JAL completes in every state, links npc in register 31 and goes to the address field. The
zero-extension of the link is the spec's choice (D19, log 18). -/
def Obligations.JalLinksAndJumps : Prop :=
  ∀ (address : Addr) (s : State), ∃ t, exec (.jal address) s = .next t ∧ t.pc = address ∧
    (t.readReg 31#5).toNat = (s.pc.toNat + 1) % 65536 ∧ SameRegsBut [31#5] s t ∧
    t.flags = s.flags ∧ SameMemBut [] s t ∧ SameControl s t

/-- R201, R202: JR and J complete in every state and change pc alone: JR to the low 16 bits of its
register, J to its address field. -/
def Obligations.JrAndJChangePcAlone : Prop :=
  ∀ (rc : RegIdx) (address : Addr) (s : State),
    (∃ t, exec (.jr rc) s = .next t ∧ t.pc.toNat = (s.readReg rc).toNat % 65536 ∧
      OnlyPcDiffers s t) ∧
    (∃ t, exec (.j address) s = .next t ∧ t.pc = address ∧ OnlyPcDiffers s t)

/-- R200, R201: a JAL followed by `JR r31` comes back to the address after the JAL. -/
def Obligations.JalThenJrReturns : Prop :=
  ∀ (address : Addr) (s : State), ∃ t u, exec (.jal address) s = .next t ∧
    exec (.jr 31) t = .next u ∧ u.pc = s.pc + 1

/-- R190 to R192: JEQ and JNE complete in every state, compare all 32 bits of the two registers, go to
the incremented pc plus the signed offset modulo 65536 when the test holds and to the incremented pc
when not, and change pc alone. -/
def Obligations.BranchesGoToNpcPlusOffset : Prop :=
  ∀ (ra rb : RegIdx) (offset : Word) (s : State),
    (∃ t, exec (.jeq ra rb offset) s = .next t ∧
      BranchEffect (s.readReg ra = s.readReg rb) offset s t) ∧
    (∃ t, exec (.jne ra rb offset) s = .next t ∧
      BranchEffect (s.readReg ra ≠ s.readReg rb) offset s t)

/-- R210: HALT completes in every state: mode becomes halted, pc keeps its value, nothing else
changes. -/
def Obligations.HaltChangesTheModeAlone : Prop :=
  ∀ s : State, ∃ t, exec .halt s = .next t ∧ t.mode = .halted ∧ t.pc = s.pc ∧
    SameRegsBut [] s t ∧ SameMemBut [] s t ∧ t.flags = s.flags ∧ t.ir = s.ir ∧
    t.cycleCount = s.cycleCount ∧ t.instructionCount = s.instructionCount

/-! ## Rules over all instructions -/

/-- R23, R124: an instruction changes no register but its destination. -/
def Obligations.OnlyTheDestinationRegisterChanges : Prop :=
  ∀ (i : Instr) (s t : State) (r : RegIdx), exec i s = .next t → destReg i ≠ some r →
    t.readReg r = s.readReg r

/-- R23, R122: what an instruction writes depends on no register but those its format reads. -/
def Obligations.OnlySourceRegistersAreRead : Prop :=
  ∀ (i : Instr) (s s' t t' : State), exec i s = .next t → exec i s' = .next t' →
    (∀ r, r ∈ sourceRegs i → s.readReg r = s'.readReg r) → s.pc = s'.pc →
    (∀ a, s.mem.read a = s'.mem.read a) →
    t.pc = t'.pc ∧ (∀ a, t.mem.read a = t'.mem.read a) ∧
      (∀ d, destReg i = some d → t.readReg d = t'.readReg d) ∧
      ((signalsOf i).aluOp ≠ none → t.flags = t'.flags)

/-- R117, R118: the control signals tell what an instruction leaves alone and where pc goes; the target
of a jump and the test of a branch are told by the instruction beside them (R118). The `halt` clause is
the spec's choice (D9, log 9). -/
def Obligations.SignalsTellTheEffects : Prop :=
  ∀ (i : Instr) (s t : State), exec i s = .next t →
    ((signalsOf i).regWrite = false → SameRegsBut [] s t) ∧
    ((signalsOf i).memWrite = false → SameMemBut [] s t) ∧
    ((signalsOf i).aluOp = none → t.flags = s.flags) ∧
    ((signalsOf i).pcSrc = .inc → t.pc = s.pc + 1) ∧
    ((signalsOf i).pcSrc = .jump →
      (∃ address, (i = .jal address ∨ i = .j address) ∧ t.pc = address) ∨
      ∃ rc, i = .jr rc ∧ t.pc.toNat = (s.readReg rc).toNat % 65536) ∧
    ((signalsOf i).pcSrc = .branch → ∃ ra rb offset,
      (i = .jeq ra rb offset ∧ BranchEffect (s.readReg ra = s.readReg rb) offset s t) ∨
      (i = .jne ra rb offset ∧ BranchEffect (s.readReg ra ≠ s.readReg rb) offset s t)) ∧
    ((signalsOf i).pcSrc = .halt → t.pc = s.pc) ∧
    ((signalsOf i).halt = true → t.mode = .halted) ∧
    ((signalsOf i).halt = false → t.mode = s.mode)

/-- R115: the rows of the signal table, written out. The `halt` column is the spec's choice (D9,
log 9). -/
def Obligations.SignalTableRows : Prop :=
  (∀ m op, aluOpOf m = some op → opcodeSignals m =
    ⟨some op, true, false, false, false, false, false, .reg, .inc, false⟩) ∧
  (∀ m, m ∈ [Opcode.loadh, Opcode.loadl] → opcodeSignals m =
    ⟨none, true, false, false, false, false, false, .imm, .inc, false⟩) ∧
  opcodeSignals .lw = ⟨none, true, true, false, true, false, false, .imm, .inc, false⟩ ∧
  opcodeSignals .sw = ⟨none, false, false, true, false, false, false, .imm, .inc, false⟩ ∧
  opcodeSignals .jal = ⟨none, true, false, false, false, false, true, .reg, .jump, false⟩ ∧
  (∀ m, m ∈ [Opcode.jr, Opcode.j] → opcodeSignals m =
    ⟨none, false, false, false, false, false, true, .reg, .jump, false⟩) ∧
  (∀ m, m ∈ [Opcode.jeq, Opcode.jne] → opcodeSignals m =
    ⟨none, false, false, false, false, true, false, .reg, .branch, false⟩) ∧
  signalsOf .halt = ⟨none, false, false, false, false, false, false, .reg, .halt, true⟩

/-- R116, R226: the control unit never fails on a record the decoder made, and gives the row of its
instruction; it fails on a record whose opcode byte is unassigned. -/
def Obligations.ControlUnitAcceptsEveryDecodedWord : Prop :=
  ∀ opc : OpcodeMap,
    (∀ (w : Word) (i : Instr), decodeWith opc w = some i →
      controlUnit opc (i.record opc) = .ok (signalsOf i)) ∧
    (∀ (d : Decoded) (b : OpByte), d.opByte = some b → (∀ m, opc m ≠ b) →
      controlUnit opc d = .error (.controlOpcodeNotRecognized d))

/-! ## The step -/

/-- R120, R121, R125: in mode running, a step whose fetched word decodes to `i` is `exec i`, which
completes, followed by `ir <- w` and both counters plus 1. The counters are the spec's choice (D6,
log 6). -/
def Obligations.StepRunsTheDecodedInstruction : Prop :=
  ∀ (s : State) (i : Instr), s.mode = .running → decode (s.mem.read s.pc) = some i →
    i.wf = true ∧ ∃ t, exec i s = .next t ∧ step s = .next { t with
      ir := s.mem.read s.pc, cycleCount := t.cycleCount + 1,
      instructionCount := t.instructionCount + 1 }

/-- R224, R230: in mode running, a word that is not the sentinel and whose opcode byte no mnemonic has
takes the step to mode fault, with no register and no memory word written, and the step returns the
error; a word that is an instruction raises none. -/
def Obligations.UnassignedOpcodeFaultsTheStep : Prop :=
  ∀ (opc : OpcodeMap) (s : State), s.mode = .running →
    ((s.fetch ≠ 0xFFFFFFFF#32 ∧ ∀ m, opc m ≠ s.fetch.extractLsb' 24 8) →
      ∃ t, stepWith opc s = .next t ∧ t.mode = .fault ∧ SameRegsBut [] s t ∧ SameMemBut [] s t ∧
        stepError opc s = some (.unrecognizedOpcode s.fetch)) ∧
    (¬ (s.fetch ≠ 0xFFFFFFFF#32 ∧ ∀ m, opc m ≠ s.fetch.extractLsb' 24 8) →
      ∃ t, stepWith opc s = .next t ∧ t.mode ≠ .fault ∧ stepError opc s = none)

/-- R223: what else a faulting step leaves: ir holds the offending word, the flags and both counters are
as they were. The spec's choice (D7, log 7); nothing is said of pc (U4). -/
def Obligations.FaultingStepKeepsFlagsAndCounters : Prop :=
  ∀ (opc : OpcodeMap) (s t : State), s.mode = .running → stepWith opc s = .next t →
    t.mode = .fault → t.ir = s.fetch ∧ t.flags = s.flags ∧ t.cycleCount = s.cycleCount ∧
      t.instructionCount = s.instructionCount

/-- R127, R257: a step in mode halted or fault changes nothing, reports nothing, and a run makes no
step. The spec's choice (D8, log 8). -/
def Obligations.NothingHappensOutsideRunning : Prop :=
  ∀ (opc : OpcodeMap) (s : State), (s.mode = .halted ∨ s.mode = .fault) →
    stepWith opc s = .next s ∧ hostStep opc s = (s, none) ∧ ∀ n, hostRun opc n s = (s, none)

/-- R127: the step function is total: every state has a next state, under every numbering. Outside
mode running this is the spec's choice (D8, log 8). -/
def Obligations.EveryStateHasANextState : Prop :=
  ∀ (opc : OpcodeMap) (s : State), ∃ t, stepWith opc s = .next t

/-- R29: the mode transitions: running to halted by the sentinel, running to fault by a word the decoder
rejects, and no other. -/
def Obligations.ModeTransitions : Prop :=
  ∀ (opc : OpcodeMap) (s t : State), stepWith opc s = .next t →
    (s.mode ≠ .running → t.mode = s.mode) ∧
    (s.mode = .running → (t.mode = .halted ↔ s.fetch = 0xFFFFFFFF#32)) ∧
    (s.mode = .running → (t.mode = .fault ↔ decodeWith opc s.fetch = none))

/-- R30, R28: each step taken in mode running puts the fetched word in ir, and adds 1 to both counters
unless it faults. The spec's choice (D5, D6, D7, logs 5 to 7). -/
def Obligations.IrAndCountersFollowTheSteps : Prop :=
  ∀ (opc : OpcodeMap) (s t : State), s.mode = .running → stepWith opc s = .next t →
    t.ir = s.fetch ∧
    (t.mode ≠ .fault → t.cycleCount = s.cycleCount + 1 ∧
      t.instructionCount = s.instructionCount + 1) ∧
    (t.mode = .fault → t.cycleCount = s.cycleCount ∧ t.instructionCount = s.instructionCount)

/-- The invariant of the machine is kept by every step from every state, under every numbering: the
memory stays in canonical form inside the 65536 words (R50, log 13), the unread slot of register 0 stays
0 (log 24), the two counters stay equal (R269, D6, log 6). -/
def Obligations.EveryStepKeepsTheInvariant : Prop :=
  ∀ (opc : OpcodeMap) (s t : State), s.Inv → stepWith opc s = .next t → t.Inv

/-- The invariant holds right after reset (R38; logs 6, 13 and 24). -/
def Obligations.InvariantHoldsAtReset : Prop := State.reset.Inv

/-- R38: `reset` gives the state of the table, from mode running and from mode halted (that it leaves
mode fault too is the spec's choice D11, log 11: see `ClockEdgeResetsOrHolds`). -/
def Obligations.ResetState : Prop :=
  (∀ r, State.reset.readReg r = 0) ∧ (∀ a, State.reset.mem.read a = 0) ∧ State.reset.pc = 0 ∧
    State.reset.ir = 0 ∧ State.reset.mode = .running ∧
    State.reset.flags =
      { negative := false, zero := false, carry := false, overflow := false } ∧
    State.reset.cycleCount = 0 ∧ State.reset.instructionCount = 0 ∧
    ∀ s : State, (s.mode = .running ∨ s.mode = .halted) → hostReset s = State.reset

/-- R33, R27, R35: no run of any length can tell two states apart that agree on registers, memory, pc
and mode, whatever their flags, ir and counters. R33 is marked derived. -/
def Obligations.FlagsIrAndCountersNeverMatterToARun : Prop :=
  ∀ (opc : OpcodeMap) (n : Nat) (s s' : State), ProgramEquiv s s' →
    ProgramEquiv (hostRun opc n s).1 (hostRun opc n s').1

/-- R53, R56: a step that changes a memory word is a step of an SW to that address. -/
def Obligations.OnlySwChangesAMemoryWord : Prop :=
  ∀ (opc : OpcodeMap) (s t : State) (a : Addr), stepWith opc s = .next t →
    t.mem.read a ≠ s.mem.read a →
    s.mode = .running ∧ ∃ ra, decodeWith opc s.fetch = some (.sw ra a) ∧
      t.mem.read a = s.readReg ra

/-- R60: over a run of any length in which no SW to the address is executed, the word there stays as it
was, so a LW at its end gives what stood there at its start. -/
def Obligations.AWordStaysUntilItIsStoredTo : Prop :=
  ∀ (opc : OpcodeMap) (a : Addr) (n : Nat) (s : State),
    (∀ k, k < n → ∀ ra, (hostRun opc k s).1.mode = .running →
      decodeWith opc (hostRun opc k s).1.fetch ≠ some (.sw ra a)) →
    (hostRun opc n s).1.mem.read a = s.mem.read a

/-- R63: a step of an SW to the address it will fetch next is seen by that fetch, and an SW to its own
address still completes: the word it fetched is the one that runs, pc moves on and the new word stands
behind it. R63 is marked derived. -/
def Obligations.AStoreIsSeenByTheNextFetch : Prop :=
  ∀ (opc : OpcodeMap) (s : State) (ra : RegIdx) (a : Addr), s.mode = .running →
    decodeWith opc s.fetch = some (.sw ra a) →
    ∃ t, stepWith opc s = .next t ∧ t.pc = s.pc + 1 ∧ t.mode = .running ∧
      t.mem.read a = s.readReg ra ∧ (a = s.pc + 1 → t.fetch = s.readReg ra) ∧
      (a = s.pc → t.ir = s.fetch)

/-! ## Registers, memory and the host -/

/-- R21: register 0 reads 0 in every state, discards every write by the host, and reads 0 after every
instruction. -/
def Obligations.RegisterZeroIsHardwired : Prop :=
  ∀ (s : State) (v : Word), s.readReg 0#5 = 0 ∧ s.writeReg 0#5 v = s ∧
    hostRegRead 0 s = .ok 0 ∧ hostRegWrite 0 v s = .ok s ∧
    ∀ i t, exec i s = .next t → t.readReg 0#5 = 0

/-- R20, R221: the register file as the host sees it: a write reads back and leaves every other
register; an index from 32 up is a range violation. -/
def Obligations.HostRegisterAccess : Prop :=
  ∀ (i : Nat) (v : Word) (s : State),
    (i < 32 → ∃ t, hostRegWrite i v s = .ok t ∧
      hostRegRead i t = .ok (if i = 0 then 0 else v) ∧
      (∀ k, k < 32 → k ≠ i → hostRegRead k t = hostRegRead k s) ∧
      SameMemBut [] s t ∧ SameControl s t ∧ t.pc = s.pc ∧ t.flags = s.flags) ∧
    (32 ≤ i → hostRegRead i s = .error .rangeViolation ∧
      hostRegWrite i v s = .error .rangeViolation)

/-- R53: MemWrite sets one whole word and changes no other, and nothing else of the state. -/
def Obligations.MemWriteSetsOneWord : Prop :=
  ∀ (s : State) (a b : Addr) (v : Word),
    (s.writeMem a v).mem.read a = v ∧
    (b ≠ a → (s.writeMem a v).mem.read b = s.mem.read b) ∧
    SameRegsBut [] s (s.writeMem a v) ∧ SameControl s (s.writeMem a v) ∧
    (s.writeMem a v).pc = s.pc ∧ (s.writeMem a v).flags = s.flags

/-- R66, R221: the host's read and write of one word; an address from 65536 up is a range violation. -/
def Obligations.HostMemoryAccess : Prop :=
  ∀ (a : Nat) (v : Word) (s : State),
    (a < 65536 → ∃ t, hostMemWrite a v s = .ok t ∧ hostMemRead a t = .ok v ∧
      (∀ b, b ≠ a → hostMemRead b t = hostMemRead b s) ∧ SameRegsBut [] s t ∧ SameControl s t ∧
      t.pc = s.pc ∧ t.flags = s.flags) ∧
    (65536 ≤ a → hostMemRead a s = .error .rangeViolation ∧
      hostMemWrite a v s = .error .rangeViolation)

/-- R259, R66: a load that starts inside memory and fits installs every word and changes nothing else;
one that starts outside (with no words too) or passes the end of memory fails. The boundary and the
all-or-nothing are the spec's choice (D21, log 20). -/
def Obligations.LoadInstallsAllOrNothing : Prop :=
  ∀ (words : List Word) (start : Nat) (s : State),
    (start < 65536 → start + words.length ≤ 65536 → ∃ t, hostMemLoad words start s = .ok t ∧
      (∀ k w, words[k]? = some w → t.mem.read (BitVec.ofNat 16 (start + k)) = w) ∧
      (∀ a : Addr, (a.toNat < start ∨ start + words.length ≤ a.toNat) →
        t.mem.read a = s.mem.read a) ∧
      SameRegsBut [] s t ∧ SameControl s t ∧ t.pc = s.pc ∧ t.flags = s.flags) ∧
    ((65536 ≤ start ∨ 65536 < start + words.length) →
      hostMemLoad words start s = .error .rangeViolation)

/-- R31, R260: a flag set by name is got by that name, the other three keep their values; any other name
is the unknown flag error. -/
def Obligations.FlagsAreReachedByNameOnly : Prop :=
  ∀ (name other : String) (v : Bool) (s : State),
    (name ∈ ["negative", "zero", "carry", "overflow"] → ∃ t, hostFlagSet name v s = .ok t ∧
      hostFlagGet name t = .ok v ∧ (other ≠ name → hostFlagGet other t = hostFlagGet other s) ∧
      SameRegsBut [] s t ∧ SameMemBut [] s t ∧ SameControl s t ∧ t.pc = s.pc) ∧
    (name ∉ ["negative", "zero", "carry", "overflow"] →
      hostFlagGet name s = .error (.unknownFlag name) ∧
      hostFlagSet name v s = .error (.unknownFlag name))

/-- R258: a run of at most m + n steps ends where a run of n steps ends that starts where a run of m
ended. That the cap counts the steps of the call is the spec's choice (D16, log 15). -/
def Obligations.RunsCompose : Prop :=
  ∀ (opc : OpcodeMap) (m n : Nat) (s : State),
    (hostRun opc (m + n) s).1 = (hostRun opc n (hostRun opc m s).1).1

/-- R258, R270, R223: a run from mode running returns an error exactly when it ends in mode fault, and
the error names the word that ir holds. That ir holds it is the spec's choice (D7, log 7). -/
def Obligations.RunReportsExactlyTheFault : Prop :=
  ∀ (opc : OpcodeMap) (n : Nat) (s : State), s.mode = .running →
    ((hostRun opc n s).1.mode = .fault →
      (hostRun opc n s).2 = some (.unrecognizedOpcode (hostRun opc n s).1.ir)) ∧
    ((hostRun opc n s).1.mode ≠ .fault → (hostRun opc n s).2 = none)

/-- R253, R254, R38: a launch gives the reset state with the program installed and pc at the entry; the
program is installed after the reset. A program that does not fit is not launched (R66, R259). The
default entry 0 is the spec's choice (D12, log 12), that a program may end at the last word too (D21,
log 20). -/
def Obligations.LaunchIsResetThenLoad : Prop :=
  ∀ (words : List Word) (start : Nat),
    (start < 65536 → start + words.length ≤ 65536 →
      ∃ t, launch words start = .ok t ∧ t.pc = 0 ∧ t.ir = 0 ∧ t.mode = .running ∧
        t.flags = { negative := false, zero := false, carry := false, overflow := false } ∧
        t.cycleCount = 0 ∧ t.instructionCount = 0 ∧ (∀ r, t.readReg r = 0) ∧
        (∀ k w, words[k]? = some w → t.mem.read (BitVec.ofNat 16 (start + k)) = w) ∧
        (∀ a : Addr, (a.toNat < start ∨ start + words.length ≤ a.toNat) → t.mem.read a = 0) ∧
        t.Inv) ∧
    ((65536 ≤ start ∨ 65536 < start + words.length) →
      launch words start = .error .rangeViolation)

/-- The canonical form is one form: two memories in it whose words all agree are the same data (the
model's own representation of R50's array, log 13). -/
def Obligations.CanonicalMemoriesAreEqualWhenTheirWordsAre : Prop :=
  ∀ m m' : Memory, m.wf = true → m'.wf = true → (∀ a, m.read a = m'.read a) → m = m'

/-! ## The hardware boundary -/

/-- R251, R263, R264: with `rst` low and `step_en` high, the clock edge of the datapath, steered by the
control signals, commits exactly what the step of R120 does, from every state and under every
numbering. The ports and the clock are the spec's choice (D10, log 10), the faulting edge D7 (log 7). -/
def Obligations.ClockEdgeIsOneStep : Prop :=
  ∀ (opc : OpcodeMap) (s : State), stepWith opc s = .next (clockEdge opc false true s)

/-- R251, R250, R263: the edge with `rst` high gives the reset state from every state; without `rst` and
`step_en` nothing changes. That reset leaves mode fault is the spec's choice (D11), that `rst` wins over
`step_en` the model's (log 11). -/
def Obligations.ClockEdgeResetsOrHolds : Prop :=
  ∀ (opc : OpcodeMap) (stepEn : Bool) (s : State),
    clockEdge opc true stepEn s = State.reset ∧ clockEdge opc false false s = s ∧
      hostReset s = State.reset
end

