-- ==== Sys2Proof/Laws/Alu.lean ====
section
/-! SUPPORT. The laws of the ALU: its exact sums as word arithmetic, its outputs as comparisons, and
what the shared template of the twelve ALU instructions does. -/

namespace Sys2Proof.Machine

@[simp] theorem aluAdd_result (a b : Word) : (aluAdd a b).result = a + b := by
  simp [aluAdd, BitVec.ofNat_add]

@[simp] theorem aluSub_result (a b : Word) : (aluSub a b).result = a - b := by
  apply BitVec.eq_of_toNat_eq
  simp only [aluSub, BitVec.toNat_ofInt, BitVec.toNat_sub]
  have := a.isLt
  have := b.isLt
  omega

@[simp] theorem aluAdd_carry (a b : Word) : (aluAdd a b).carry = addCarry a b := rfl

@[simp] theorem aluSub_carry (a b : Word) : (aluSub a b).carry = subBorrow a b := rfl

theorem aluAdd_overflow (a b : Word) : (aluAdd a b).overflow = addOverflow a b (a + b) := by
  rw [← aluAdd_result a b]; rfl

theorem aluSub_overflow (a b : Word) : (aluSub a b).overflow = subOverflow a b (a - b) := by
  rw [← aluSub_result a b]; rfl

theorem subBorrow_eq (a b : Word) : subBorrow a b = decide (a.toNat < b.toNat) := by
  unfold subBorrow
  by_cases h : a.toNat < b.toNat
  · have h' : (a.toNat : Int) - (b.toNat : Int) < 0 := by omega
    simp [h, h']
  · have h' : ¬ (a.toNat : Int) - (b.toNat : Int) < 0 := by omega
    simp only [h, h', decide_false]

/-- The shift amount as a remainder: the low five bits of the second operand (R155). -/
theorem shiftAmount_eq (b : Word) : shiftAmount b = b.toNat % 32 := by
  simp [shiftAmount]

theorem shiftAmount_lt (b : Word) : shiftAmount b < 32 := by
  rw [shiftAmount_eq]; omega

@[simp] theorem flagsOf_negative (o : AluOut) : (flagsOf o).negative = o.result.msb := rfl
@[simp] theorem flagsOf_zero (o : AluOut) : (flagsOf o).zero = decide (o.result = 0) := rfl
@[simp] theorem flagsOf_carry (o : AluOut) : (flagsOf o).carry = o.carry := rfl
@[simp] theorem flagsOf_overflow (o : AluOut) : (flagsOf o).overflow = o.overflow := rfl

/-- What the template of R154 does: it answers one next state. -/
theorem execAlu_next (op : AluOp) (ra rb rc : RegIdx) (s t : State)
    (h : execAlu op ra rb rc s = .next t) :
    t = ((s.writeReg ra (alu op (s.readReg rb) (s.readReg rc)).result).setFlags
      (flagsOf (alu op (s.readReg rb) (s.readReg rc)))).setPc s.npc := by
  simp only [execAlu, Host.Outcome.next.injEq] at h
  exact h.symm

end Sys2Proof.Machine
end

