-- ==== Sys2Proof/Laws/Decode.lean ====
section
/-! SUPPORT. The laws of the opcode lookup and of the field extraction over packed words. -/

namespace Sys2Proof

theorem mem_allOpcodes (m : Opcode) : m ∈ allOpcodes := by
  cases m <;> decide

/-- A well-formed numbering is injective (R88). -/
theorem opcWellFormed_injective (opc : OpcodeMap) (h : opcWellFormed opc = true) (m n : Opcode)
    (e : opc m = opc n) : m = n := by
  have hn : (allOpcodes.map opc).Nodup := of_decide_eq_true h
  exact List.inj_on_of_nodup_map hn (mem_allOpcodes m) (mem_allOpcodes n) e

/-- The default numbering is well formed. -/
theorem defaultOpc_wellFormed : opcWellFormed defaultOpc = true := by decide

/-- A lookup that succeeds gives a mnemonic with that number. -/
theorem lookupOpcode_sound (opc : OpcodeMap) (b : OpByte) (m : Opcode)
    (h : lookupOpcode opc b = some m) : opc m = b := by
  have := List.find?_some h
  simpa using this

/-- A lookup fails exactly when no mnemonic has that number. -/
theorem lookupOpcode_none (opc : OpcodeMap) (b : OpByte) :
    lookupOpcode opc b = none ↔ ∀ m, opc m ≠ b := by
  simp only [lookupOpcode, List.find?_eq_none, beq_iff_eq]
  exact ⟨fun h m => h m (mem_allOpcodes m), fun h m _ => h m⟩

/-- Under a well-formed numbering each mnemonic is found by its own number (R90). -/
theorem lookupOpcode_self (opc : OpcodeMap) (h : opcWellFormed opc = true) (m : Opcode) :
    lookupOpcode opc (opc m) = some m := by
  cases hl : lookupOpcode opc (opc m) with
  | none => exact absurd rfl ((lookupOpcode_none opc (opc m)).mp hl m)
  | some n => rw [opcWellFormed_injective opc h n m (lookupOpcode_sound opc _ n hl)]

/-- The sentinel is HALT under every numbering (R89). -/
theorem decodeWith_haltWord (opc : OpcodeMap) : decodeWith opc haltWord = some .halt := by
  simp [decodeWith]

/-- Every other word goes to the opcode lookup (R90). -/
theorem decodeWith_other (opc : OpcodeMap) (w : Word) (h : w ≠ haltWord) :
    decodeWith opc w = (lookupOpcode opc (opcodeField w)).map (fun m => fieldsOf m w) := by
  simp [decodeWith, h]

/-- What the decoder can answer. -/
theorem decodeWith_cases (opc : OpcodeMap) (w : Word) (i : Instr) (h : decodeWith opc w = some i) :
    (w = haltWord ∧ i = .halt) ∨
      (w ≠ haltWord ∧ ∃ m, opc m = opcodeField w ∧ i = fieldsOf m w) := by
  by_cases hw : w = haltWord
  · subst hw
    rw [decodeWith_haltWord] at h
    exact Or.inl ⟨rfl, (Option.some.inj h).symm⟩
  · rw [decodeWith_other opc w hw] at h
    obtain ⟨m, hm, hi⟩ := Option.map_eq_some_iff.mp h
    exact Or.inr ⟨hw, m, lookupOpcode_sound opc _ m hm, hi.symm⟩

@[simp] theorem fieldsOf_opcode (m : Opcode) (w : Word) : (fieldsOf m w).opcode = some m := by
  cases m <;> rfl

end Sys2Proof
end

