-- ==== Sys2Proof/Laws/Encode.lean ====
section
/-! SUPPORT. Each packed word gives back each of its fields (R81, R86), one lemma per format and
field, and the branch offset as the sign extension of its low 14 bits (R85). -/

namespace Sys2Proof

@[simp] theorem packR_opcodeField (op : OpByte) (ra rb rc : RegIdx) :
    opcodeField (packR op ra rb rc) = op := by
  apply BitVec.eq_of_getLsbD_eq
  intro k hk
  simp [opcodeField, packR, hk]
  interval_cases k <;> simp

@[simp] theorem packR_raField (op : OpByte) (ra rb rc : RegIdx) :
    raField (packR op ra rb rc) = ra := by
  apply BitVec.eq_of_getLsbD_eq
  intro k hk
  simp [raField, packR, hk]
  interval_cases k <;> simp

@[simp] theorem packR_rbField (op : OpByte) (ra rb rc : RegIdx) :
    rbField (packR op ra rb rc) = rb := by
  apply BitVec.eq_of_getLsbD_eq
  intro k hk
  simp [rbField, packR, hk]
  interval_cases k <;> simp

@[simp] theorem packR_rcField (op : OpByte) (ra rb rc : RegIdx) :
    rcField (packR op ra rb rc) = rc := by
  apply BitVec.eq_of_getLsbD_eq
  intro k hk
  simp [rcField, packR, hk]
  interval_cases k <;> simp

@[simp] theorem packI_opcodeField (op : OpByte) (ra : RegIdx) (imm : Half) :
    opcodeField (packI op ra imm) = op := by
  apply BitVec.eq_of_getLsbD_eq
  intro k hk
  simp [opcodeField, packI, hk]
  interval_cases k <;> simp

@[simp] theorem packI_raField (op : OpByte) (ra : RegIdx) (imm : Half) :
    raField (packI op ra imm) = ra := by
  apply BitVec.eq_of_getLsbD_eq
  intro k hk
  simp [raField, packI, hk]
  interval_cases k <;> simp

@[simp] theorem packI_immField (op : OpByte) (ra : RegIdx) (imm : Half) :
    immField (packI op ra imm) = imm := by
  apply BitVec.eq_of_getLsbD_eq
  intro k hk
  simp [immField, packI, hk]
  interval_cases k <;> simp

@[simp] theorem packJ_opcodeField (op : OpByte) (address : Addr) :
    opcodeField (packJ op address) = op := by
  apply BitVec.eq_of_getLsbD_eq
  intro k hk
  simp [opcodeField, packJ, hk]
  interval_cases k <;> simp

@[simp] theorem packJ_addrField (op : OpByte) (address : Addr) :
    addrField (packJ op address) = address := by
  apply BitVec.eq_of_getLsbD_eq
  intro k hk
  simp [addrField, packJ, hk]
  interval_cases k <;> simp

@[simp] theorem packJR_opcodeField (op : OpByte) (rc : RegIdx) :
    opcodeField (packJR op rc) = op := by
  apply BitVec.eq_of_getLsbD_eq
  intro k hk
  simp [opcodeField, packJR, hk]
  interval_cases k <;> simp

@[simp] theorem packJR_jrField (op : OpByte) (rc : RegIdx) :
    jrField (packJR op rc) = rc := by
  apply BitVec.eq_of_getLsbD_eq
  intro k hk
  simp [jrField, packJR, hk]
  interval_cases k <;> simp

@[simp] theorem packB_opcodeField (op : OpByte) (ra rb : RegIdx) (offset : Word) :
    opcodeField (packB op ra rb offset) = op := by
  apply BitVec.eq_of_getLsbD_eq
  intro k hk
  simp only [opcodeField, packB, BitVec.getLsbD_extractLsb', BitVec.getLsbD_or, BitVec.getLsbD_and]
  interval_cases k <;> simp

@[simp] theorem packB_raField (op : OpByte) (ra rb : RegIdx) (offset : Word) :
    raField (packB op ra rb offset) = ra := by
  apply BitVec.eq_of_getLsbD_eq
  intro k hk
  simp only [raField, packB, BitVec.getLsbD_extractLsb', BitVec.getLsbD_or, BitVec.getLsbD_and]
  interval_cases k <;> simp

@[simp] theorem packB_rbField (op : OpByte) (ra rb : RegIdx) (offset : Word) :
    rbField (packB op ra rb offset) = rb := by
  apply BitVec.eq_of_getLsbD_eq
  intro k hk
  simp only [rbField, packB, BitVec.getLsbD_extractLsb', BitVec.getLsbD_or, BitVec.getLsbD_and]
  interval_cases k <;> simp

/-- The low 14 bits of a format B word are those of the offset. -/
theorem packB_low (op : OpByte) (ra rb : RegIdx) (offset : Word) :
    (packB op ra rb offset).extractLsb' 0 14 = offset.extractLsb' 0 14 := by
  apply BitVec.eq_of_getLsbD_eq
  intro k hk
  simp only [packB, BitVec.getLsbD_extractLsb', BitVec.getLsbD_or, BitVec.getLsbD_and,
    Nat.zero_add]
  interval_cases k <;> simp

/-- An offset is in range exactly when it is the sign extension of its low 14 bits (R85). -/
theorem offsetInRange_iff (offset : Word) :
    offsetInRange offset = true ↔ (offset.extractLsb' 0 14).signExtend 32 = offset := by
  have hlow : (offset.extractLsb' 0 14).toInt = Int.bmod offset.toInt (2 ^ 14) := by
    rw [BitVec.toInt_eq_toNat_bmod, BitVec.extractLsb'_toNat, BitVec.toInt_eq_toNat_bmod]
    simp only [Nat.shiftRight_zero]
    rw [Int.bmod_bmod_of_dvd (by norm_num)]
    simp [← Int.emod_bmod (offset.toNat : Int) 16384]
  rw [← BitVec.toInt_inj, BitVec.toInt_signExtend_of_le (by omega), hlow]
  simp only [offsetInRange, Bool.and_eq_true, decide_eq_true_eq]
  constructor
  · intro ⟨h1, h2⟩
    apply Int.bmod_eq_of_le <;> omega
  · intro h
    have h1 := Int.le_bmod (x := offset.toInt) (m := 2 ^ 14) (by norm_num)
    have h2 := Int.bmod_lt (x := offset.toInt) (m := 2 ^ 14) (by norm_num)
    omega

@[simp] theorem packB_offsetField (op : OpByte) (ra rb : RegIdx) (offset : Word)
    (h : offsetInRange offset = true) : offsetField (packB op ra rb offset) = offset := by
  rw [offsetField, packB_low]
  exact (offsetInRange_iff offset).mp h

/-- Every offset the decoder makes is in range (R85). -/
theorem offsetField_inRange (w : Word) : offsetInRange (offsetField w) = true := by
  have h1 := BitVec.le_toInt (w.extractLsb' 0 14)
  have h2 := BitVec.toInt_lt (x := w.extractLsb' 0 14)
  have h3 : (offsetField w).toInt = (w.extractLsb' 0 14).toInt :=
    BitVec.toInt_signExtend_of_le (by omega)
  simp only [offsetInRange, Bool.and_eq_true, decide_eq_true_eq]
  omega

/-! ## Packing the fields of a word clears its unused bits (R82, R86) -/

theorem packR_fields (w : Word) :
    packR (opcodeField w) (raField w) (rbField w) (rcField w) = w &&& Format.r.usedBits := by
  apply BitVec.eq_of_getLsbD_eq
  intro k hk
  simp only [packR, opcodeField, raField, rbField, rcField, Format.usedBits, BitVec.getLsbD_or, BitVec.getLsbD_and]
  interval_cases k <;> simp

theorem packI_fields (w : Word) :
    packI (opcodeField w) (raField w) (immField w) = w &&& Format.i.usedBits := by
  apply BitVec.eq_of_getLsbD_eq
  intro k hk
  simp only [packI, opcodeField, raField, immField, Format.usedBits, BitVec.getLsbD_or, BitVec.getLsbD_and]
  interval_cases k <;> simp

theorem packJ_fields (w : Word) :
    packJ (opcodeField w) (addrField w) = w &&& Format.j.usedBits := by
  apply BitVec.eq_of_getLsbD_eq
  intro k hk
  simp only [packJ, opcodeField, addrField, Format.usedBits, BitVec.getLsbD_or, BitVec.getLsbD_and]
  interval_cases k <;> simp

theorem packJR_fields (w : Word) :
    packJR (opcodeField w) (jrField w) = w &&& Format.jr.usedBits := by
  apply BitVec.eq_of_getLsbD_eq
  intro k hk
  simp only [packJR, opcodeField, jrField, Format.usedBits, BitVec.getLsbD_or, BitVec.getLsbD_and]
  interval_cases k <;> simp

theorem packB_fields (w : Word) :
    packB (opcodeField w) (raField w) (rbField w) (offsetField w) = w &&& Format.b.usedBits := by
  apply BitVec.eq_of_getLsbD_eq
  intro k hk
  simp only [packB, opcodeField, raField, rbField, offsetField, Format.usedBits, BitVec.getLsbD_or, BitVec.getLsbD_and]
  interval_cases k <;> simp [BitVec.getElem_signExtend]

end Sys2Proof
end

