-- ==== Sys2Proof/Laws/Memory.lean ====
section
/-! SUPPORT. The laws of the word store: what a read gives after a write (R52, R53), and that every
memory operation keeps the canonical form. -/

namespace Sys2Proof.Machine

theorem lookupCell_dropCell (cells : List (Nat × Word)) (a b : Nat) :
    lookupCell (dropCell cells a) b = if b = a then unlistedWord else lookupCell cells b := by
  induction cells with
  | nil => simp [dropCell, lookupCell]
  | cons c rest ih =>
    obtain ⟨k, x⟩ := c
    by_cases hk : k = a
    · subst hk
      by_cases hb : b = k
      · subst hb
        simpa [dropCell] using ih
      · have : ¬ k = b := fun e => hb e.symm
        simp [dropCell, lookupCell, ih, hb, this]
    · by_cases hb : b = a
      · subst hb; simp [dropCell, lookupCell, ih, hk]
      · simp [dropCell, lookupCell, ih, hk, hb]

theorem lookupCell_insertCell (cells : List (Nat × Word)) (a b : Nat) (v : Word) :
    lookupCell (insertCell cells a v) b = if b = a then v else lookupCell cells b := by
  induction cells with
  | nil => simp [insertCell, lookupCell, eq_comm]
  | cons c rest ih =>
    obtain ⟨k, x⟩ := c
    unfold insertCell
    by_cases hlt : a < k
    · simp [hlt, lookupCell, eq_comm]
    · by_cases hk : a = k
      · subst hk
        by_cases hb : b = a
        · simp [lookupCell, hb]
        · have : ¬ a = b := fun e => hb e.symm
          simp [lookupCell, hb, this]
      · by_cases hkb : k = b
        · subst hkb
          have : ¬ k = a := fun e => hk e.symm
          simp [hlt, hk, lookupCell, this]
        · simp [hlt, hk, lookupCell, hkb, ih]

/-- The one law of the memory: what every address reads after a write (R53). -/
theorem Memory.read_write (m : Memory) (a b : Addr) (v : Word) :
    (m.write a v).read b = if b = a then v else m.read b := by
  have key : (b.toNat = a.toNat) ↔ b = a := BitVec.toNat_inj
  unfold Memory.write Memory.read
  split
  · rename_i hv
    simp [lookupCell_dropCell, key, hv]
  · simp [lookupCell_insertCell, key]

/-- A read gives the word last written there (R60). -/
@[simp] theorem Memory.read_write_same (m : Memory) (a : Addr) (v : Word) :
    (m.write a v).read a = v := by
  simp [Memory.read_write]

/-- A write changes no other word (R53). -/
theorem Memory.read_write_other (m : Memory) (a b : Addr) (v : Word) (h : b ≠ a) :
    (m.write a v).read b = m.read b := by
  simp [Memory.read_write, h]

/-- Every word of the cleared memory is 0 (R51). -/
@[simp] theorem Memory.read_cleared (a : Addr) : Memory.cleared.read a = 0 := rfl

/-- Every word of the reset memory is 0 (R38). -/
@[simp] theorem Memory.read_reset (a : Addr) : State.reset.mem.read a = 0 := rfl

/-! ## The canonical form -/

theorem cellsWf_cons (lo k : Nat) (v : Word) (rest : List (Nat × Word)) :
    cellsWf lo ((k, v) :: rest) = true ↔
      lo ≤ k ∧ k < memorySize ∧ v ≠ unlistedWord ∧ cellsWf (k + 1) rest = true := by
  simp [cellsWf, and_assoc]

theorem cellsWf_mono (cells : List (Nat × Word)) (lo hi : Nat) (h : lo ≤ hi)
    (hw : cellsWf hi cells = true) : cellsWf lo cells = true := by
  cases cells with
  | nil => rfl
  | cons c rest =>
    obtain ⟨k, v⟩ := c
    rw [cellsWf_cons] at hw ⊢
    exact ⟨le_trans h hw.1, hw.2⟩

theorem dropCell_wf (cells : List (Nat × Word)) (lo a : Nat) (hw : cellsWf lo cells = true) :
    cellsWf lo (dropCell cells a) = true := by
  induction cells generalizing lo with
  | nil => rfl
  | cons c rest ih =>
    obtain ⟨k, v⟩ := c
    rw [cellsWf_cons] at hw
    obtain ⟨h1, h2, h3, h4⟩ := hw
    unfold dropCell
    split
    · exact cellsWf_mono _ lo (k + 1) (by omega) (ih (k + 1) h4)
    · rw [cellsWf_cons]
      exact ⟨h1, h2, h3, ih (k + 1) h4⟩

theorem insertCell_wf (cells : List (Nat × Word)) (lo a : Nat) (v : Word)
    (hw : cellsWf lo cells = true) (hlo : lo ≤ a) (ha : a < memorySize) (hv : v ≠ unlistedWord) :
    cellsWf lo (insertCell cells a v) = true := by
  induction cells generalizing lo with
  | nil =>
    unfold insertCell
    rw [cellsWf_cons]
    exact ⟨hlo, ha, hv, rfl⟩
  | cons c rest ih =>
    obtain ⟨k, x⟩ := c
    rw [cellsWf_cons] at hw
    obtain ⟨h1, h2, h3, h4⟩ := hw
    unfold insertCell
    by_cases hlt : a < k
    · rw [if_pos hlt, cellsWf_cons, cellsWf_cons]
      exact ⟨hlo, ha, hv, by omega, h2, h3, h4⟩
    · rw [if_neg hlt]
      by_cases hk : a = k
      · subst hk
        rw [if_pos rfl, cellsWf_cons]
        exact ⟨hlo, ha, hv, h4⟩
      · rw [if_neg hk, cellsWf_cons]
        exact ⟨h1, h2, h3, ih (k + 1) h4 (by omega)⟩

/-- A write keeps the canonical form. -/
theorem Memory.write_wf (m : Memory) (a : Addr) (v : Word) (hw : m.wf = true) :
    (m.write a v).wf = true := by
  unfold Memory.write
  split
  · exact dropCell_wf _ _ _ hw
  · rename_i hv
    exact insertCell_wf _ _ _ _ hw (Nat.zero_le _) (by have := a.isLt; unfold memorySize; omega) hv

/-- The cleared memory is in canonical form. -/
theorem Memory.cleared_wf : Memory.cleared.wf = true := rfl

/-- The reset memory is in canonical form. -/
theorem Memory.reset_wf : State.reset.mem.wf = true := rfl

/-- In canonical form, an address below the bound is not listed. -/
theorem lookupCell_below (cells : List (Nat × Word)) (lo a : Nat) (hw : cellsWf lo cells = true)
    (h : a < lo) : lookupCell cells a = unlistedWord := by
  induction cells generalizing lo with
  | nil => rfl
  | cons c rest ih =>
    obtain ⟨k, v⟩ := c
    rw [cellsWf_cons] at hw
    have hne : ¬ k = a := by omega
    simp [lookupCell, hne, ih (k + 1) hw.2.2.2 (by omega)]

end Sys2Proof.Machine
end

