-- ==== Sys2Proof/Laws/State.lean ====
section
/-! SUPPORT. The small lemmas of the state updates: one per field per update, each true by unfolding the
update once, so that no later proof unfolds a record update. -/

namespace Sys2Proof.Machine

@[simp] theorem State.setPc_regs (s : State) (t : Addr) : (s.setPc t).regs = s.regs := rfl
@[simp] theorem State.setPc_pc (s : State) (t : Addr) : (s.setPc t).pc = t := rfl
@[simp] theorem State.setPc_ir (s : State) (t : Addr) : (s.setPc t).ir = s.ir := rfl
@[simp] theorem State.setPc_mode (s : State) (t : Addr) : (s.setPc t).mode = s.mode := rfl
@[simp] theorem State.setPc_flags (s : State) (t : Addr) : (s.setPc t).flags = s.flags := rfl
@[simp] theorem State.setPc_cycleCount (s : State) (t : Addr) : (s.setPc t).cycleCount = s.cycleCount := rfl
@[simp] theorem State.setPc_instructionCount (s : State) (t : Addr) : (s.setPc t).instructionCount = s.instructionCount := rfl
@[simp] theorem State.setPc_mem (s : State) (t : Addr) : (s.setPc t).mem = s.mem := rfl

@[simp] theorem State.setFlags_regs (s : State) (f : Flags) : (s.setFlags f).regs = s.regs := rfl
@[simp] theorem State.setFlags_pc (s : State) (f : Flags) : (s.setFlags f).pc = s.pc := rfl
@[simp] theorem State.setFlags_ir (s : State) (f : Flags) : (s.setFlags f).ir = s.ir := rfl
@[simp] theorem State.setFlags_mode (s : State) (f : Flags) : (s.setFlags f).mode = s.mode := rfl
@[simp] theorem State.setFlags_flags (s : State) (f : Flags) : (s.setFlags f).flags = f := rfl
@[simp] theorem State.setFlags_cycleCount (s : State) (f : Flags) : (s.setFlags f).cycleCount = s.cycleCount := rfl
@[simp] theorem State.setFlags_instructionCount (s : State) (f : Flags) : (s.setFlags f).instructionCount = s.instructionCount := rfl
@[simp] theorem State.setFlags_mem (s : State) (f : Flags) : (s.setFlags f).mem = s.mem := rfl

@[simp] theorem State.setMode_regs (s : State) (m : RunMode) : (s.setMode m).regs = s.regs := rfl
@[simp] theorem State.setMode_pc (s : State) (m : RunMode) : (s.setMode m).pc = s.pc := rfl
@[simp] theorem State.setMode_ir (s : State) (m : RunMode) : (s.setMode m).ir = s.ir := rfl
@[simp] theorem State.setMode_mode (s : State) (m : RunMode) : (s.setMode m).mode = m := rfl
@[simp] theorem State.setMode_flags (s : State) (m : RunMode) : (s.setMode m).flags = s.flags := rfl
@[simp] theorem State.setMode_cycleCount (s : State) (m : RunMode) : (s.setMode m).cycleCount = s.cycleCount := rfl
@[simp] theorem State.setMode_instructionCount (s : State) (m : RunMode) : (s.setMode m).instructionCount = s.instructionCount := rfl
@[simp] theorem State.setMode_mem (s : State) (m : RunMode) : (s.setMode m).mem = s.mem := rfl

@[simp] theorem State.writeMem_regs (s : State) (a : Addr) (v : Word) : (s.writeMem a v).regs = s.regs := rfl
@[simp] theorem State.writeMem_pc (s : State) (a : Addr) (v : Word) : (s.writeMem a v).pc = s.pc := rfl
@[simp] theorem State.writeMem_ir (s : State) (a : Addr) (v : Word) : (s.writeMem a v).ir = s.ir := rfl
@[simp] theorem State.writeMem_mode (s : State) (a : Addr) (v : Word) : (s.writeMem a v).mode = s.mode := rfl
@[simp] theorem State.writeMem_flags (s : State) (a : Addr) (v : Word) : (s.writeMem a v).flags = s.flags := rfl
@[simp] theorem State.writeMem_cycleCount (s : State) (a : Addr) (v : Word) : (s.writeMem a v).cycleCount = s.cycleCount := rfl
@[simp] theorem State.writeMem_instructionCount (s : State) (a : Addr) (v : Word) : (s.writeMem a v).instructionCount = s.instructionCount := rfl
@[simp] theorem State.writeMem_mem (s : State) (a : Addr) (v : Word) : (s.writeMem a v).mem = s.mem.write a v := rfl

@[simp] theorem State.retire_regs (s : State) (w : Word) : (s.retire w).regs = s.regs := rfl
@[simp] theorem State.retire_pc (s : State) (w : Word) : (s.retire w).pc = s.pc := rfl
@[simp] theorem State.retire_ir (s : State) (w : Word) : (s.retire w).ir = w := rfl
@[simp] theorem State.retire_mode (s : State) (w : Word) : (s.retire w).mode = s.mode := rfl
@[simp] theorem State.retire_flags (s : State) (w : Word) : (s.retire w).flags = s.flags := rfl
@[simp] theorem State.retire_cycleCount (s : State) (w : Word) : (s.retire w).cycleCount = s.cycleCount + 1 := rfl
@[simp] theorem State.retire_instructionCount (s : State) (w : Word) : (s.retire w).instructionCount = s.instructionCount + 1 := rfl
@[simp] theorem State.retire_mem (s : State) (w : Word) : (s.retire w).mem = s.mem := rfl

@[simp] theorem State.takeFault_regs (s : State) (w : Word) : (s.takeFault w).regs = s.regs := rfl
@[simp] theorem State.takeFault_pc (s : State) (w : Word) : (s.takeFault w).pc = s.pc := rfl
@[simp] theorem State.takeFault_ir (s : State) (w : Word) : (s.takeFault w).ir = w := rfl
@[simp] theorem State.takeFault_mode (s : State) (w : Word) : (s.takeFault w).mode = RunMode.fault := rfl
@[simp] theorem State.takeFault_flags (s : State) (w : Word) : (s.takeFault w).flags = s.flags := rfl
@[simp] theorem State.takeFault_cycleCount (s : State) (w : Word) : (s.takeFault w).cycleCount = s.cycleCount := rfl
@[simp] theorem State.takeFault_instructionCount (s : State) (w : Word) : (s.takeFault w).instructionCount = s.instructionCount := rfl
@[simp] theorem State.takeFault_mem (s : State) (w : Word) : (s.takeFault w).mem = s.mem := rfl

/-! Reading a register after an update that writes none. -/

@[simp] theorem State.setPc_readReg (s : State) (t : Addr) (r : RegIdx) :
    (s.setPc t).readReg r = s.readReg r := rfl
@[simp] theorem State.setFlags_readReg (s : State) (f : Flags) (r : RegIdx) :
    (s.setFlags f).readReg r = s.readReg r := rfl
@[simp] theorem State.setMode_readReg (s : State) (m : RunMode) (r : RegIdx) :
    (s.setMode m).readReg r = s.readReg r := rfl
@[simp] theorem State.writeMem_readReg (s : State) (a : Addr) (v : Word) (r : RegIdx) :
    (s.writeMem a v).readReg r = s.readReg r := rfl
@[simp] theorem State.retire_readReg (s : State) (w : Word) (r : RegIdx) :
    (s.retire w).readReg r = s.readReg r := rfl
@[simp] theorem State.takeFault_readReg (s : State) (w : Word) (r : RegIdx) :
    (s.takeFault w).readReg r = s.readReg r := rfl

/-! A register write leaves every other field (R21, R124). -/

@[simp] theorem State.writeReg_pc (s : State) (i : RegIdx) (v : Word) :
    (s.writeReg i v).pc = s.pc := by
  unfold State.writeReg; split <;> rfl
@[simp] theorem State.writeReg_ir (s : State) (i : RegIdx) (v : Word) :
    (s.writeReg i v).ir = s.ir := by
  unfold State.writeReg; split <;> rfl
@[simp] theorem State.writeReg_mode (s : State) (i : RegIdx) (v : Word) :
    (s.writeReg i v).mode = s.mode := by
  unfold State.writeReg; split <;> rfl
@[simp] theorem State.writeReg_flags (s : State) (i : RegIdx) (v : Word) :
    (s.writeReg i v).flags = s.flags := by
  unfold State.writeReg; split <;> rfl
@[simp] theorem State.writeReg_cycleCount (s : State) (i : RegIdx) (v : Word) :
    (s.writeReg i v).cycleCount = s.cycleCount := by
  unfold State.writeReg; split <;> rfl
@[simp] theorem State.writeReg_instructionCount (s : State) (i : RegIdx) (v : Word) :
    (s.writeReg i v).instructionCount = s.instructionCount := by
  unfold State.writeReg; split <;> rfl
@[simp] theorem State.writeReg_mem (s : State) (i : RegIdx) (v : Word) :
    (s.writeReg i v).mem = s.mem := by
  unfold State.writeReg; split <;> rfl

/-- Register 0 reads 0 in every state (R21). -/
@[simp] theorem State.readReg_zero (s : State) : s.readReg 0#5 = 0#32 := rfl

/-- A write to register 0 changes nothing (R21). -/
@[simp] theorem State.writeReg_zero (s : State) (v : Word) : s.writeReg 0#5 v = s := rfl

/-- A register other than 0 reads back what was written to it. -/
theorem State.readReg_writeReg_same (s : State) (i : RegIdx) (v : Word) (h : i ≠ 0#5) :
    (s.writeReg i v).readReg i = v := by
  simp only [State.readReg, State.writeReg, if_neg h, Vector.getElem_set_self]

/-- A register write leaves every other register. -/
theorem State.readReg_writeReg_other (s : State) (i r : RegIdx) (v : Word) (h : r ≠ i) :
    (s.writeReg i v).readReg r = s.readReg r := by
  by_cases hi : i = 0#5
  · subst hi; rfl
  · have hn : i.toNat ≠ r.toNat := fun e => h (BitVec.eq_of_toNat_eq e.symm)
    simp only [State.readReg, State.writeReg, if_neg hi]
    rw [Vector.getElem_set_ne _ _ hn]

/-- What a register write does to every register (R21). -/
theorem State.readReg_writeReg (s : State) (i r : RegIdx) (v : Word) :
    (s.writeReg i v).readReg r = if r = i ∧ i ≠ 0#5 then v else s.readReg r := by
  by_cases h : r = i
  · subst h
    by_cases hr : r = 0#5
    · subst hr; simp
    · rw [State.readReg_writeReg_same s r v hr, if_pos ⟨rfl, hr⟩]
  · rw [State.readReg_writeReg_other s i r v h, if_neg (fun e => h e.1)]

/-- A register write never touches the unread slot of register 0. -/
theorem State.writeReg_slotZero (s : State) (i : RegIdx) (v : Word) :
    (s.writeReg i v).regs[0] = s.regs[0] := by
  by_cases hi : i = 0#5
  · subst hi; rfl
  · have hn : i.toNat ≠ 0 := fun e => hi (BitVec.eq_of_toNat_eq (by simpa using e))
    simp only [State.writeReg, if_neg hi]
    rw [Vector.getElem_set_ne _ _ hn]

/-- Every register reads 0 after reset (R38). -/
theorem State.reset_readReg (r : RegIdx) : State.reset.readReg r = 0#32 := by
  simp [State.readReg, State.reset]

end Sys2Proof.Machine
end

