-- ==== Sys2Proof/Laws/Step.lean ====
section
/-! SUPPORT. What each meaning answers, said once, and what one step can do, said once: a step stays
where it is, takes the fault, or runs the decoded instruction and retires it. -/

namespace Sys2Proof.Machine

/-! ## The meanings -/

theorem execLoadh_next (ra : RegIdx) (imm : Half) (s t : State) (h : execLoadh ra imm s = .next t) :
    t = (s.writeReg ra (packHigh imm (s.readReg ra))).setPc s.npc :=
  (Host.Outcome.next.inj h).symm

theorem execLoadl_next (ra : RegIdx) (imm : Half) (s t : State) (h : execLoadl ra imm s = .next t) :
    t = (s.writeReg ra (packLow imm (s.readReg ra))).setPc s.npc :=
  (Host.Outcome.next.inj h).symm

theorem execLw_next (ra : RegIdx) (imm : Half) (s t : State) (h : execLw ra imm s = .next t) :
    t = (s.writeReg ra (s.mem.read (effectiveAddr imm))).setPc s.npc :=
  (Host.Outcome.next.inj h).symm

theorem execSw_next (ra : RegIdx) (imm : Half) (s t : State) (h : execSw ra imm s = .next t) :
    t = (s.writeMem (effectiveAddr imm) (s.readReg ra)).setPc s.npc :=
  (Host.Outcome.next.inj h).symm

theorem execJal_next (address : Addr) (s t : State) (h : execJal address s = .next t) :
    t = (s.writeReg linkReg (linkValue s.npc)).setPc address :=
  (Host.Outcome.next.inj h).symm

theorem execJr_next (rc : RegIdx) (s t : State) (h : execJr rc s = .next t) :
    t = s.setPc (jumpRegTarget (s.readReg rc)) :=
  (Host.Outcome.next.inj h).symm

theorem execJ_next (address : Addr) (s t : State) (h : execJ address s = .next t) :
    t = s.setPc address :=
  (Host.Outcome.next.inj h).symm

theorem execJeq_next (ra rb : RegIdx) (offset : Word) (s t : State)
    (h : execJeq ra rb offset s = .next t) :
    t = branchIf (s.readReg ra == s.readReg rb) offset s :=
  (Host.Outcome.next.inj h).symm

theorem execJne_next (ra rb : RegIdx) (offset : Word) (s t : State)
    (h : execJne ra rb offset s = .next t) :
    t = branchIf (s.readReg ra != s.readReg rb) offset s :=
  (Host.Outcome.next.inj h).symm

theorem execHalt_next (s t : State) (h : execHalt s = .next t) : t = s.setMode .halted :=
  (Host.Outcome.next.inj h).symm

/-- A branch changes pc and nothing else (R190). -/
theorem branchIf_eq (taken : Bool) (offset : Word) (s : State) :
    branchIf taken offset s =
      s.setPc (if taken then branchTarget s.npc offset else s.npc) := rfl

/-! ## The step -/

/-- What one step can do (R120, R126, R127). -/
theorem stepWith_cases (opc : OpcodeMap) (s t : State) (h : stepWith opc s = .next t) :
    (s.mode ≠ .running ∧ t = s) ∨
      (s.mode = .running ∧ decodeWith opc s.fetch = none ∧ t = s.takeFault s.fetch) ∨
      (s.mode = .running ∧ ∃ i u, decodeWith opc s.fetch = some i ∧ exec i s = .next u ∧
        t = u.retire s.fetch) := by
  unfold stepWith at h
  split at h
  · rename_i hm
    split at h
    · rename_i hd
      exact .inr (.inl ⟨hm, hd, (Host.Outcome.next.inj h).symm⟩)
    · rename_i i hd
      split at h
      · rename_i u hu
        exact .inr (.inr ⟨hm, i, u, hd, hu, (Host.Outcome.next.inj h).symm⟩)
      · cases h
      · cases h
  · rename_i hm
    exact .inl ⟨by simp [hm], (Host.Outcome.next.inj h).symm⟩
  · rename_i hm
    exact .inl ⟨by simp [hm], (Host.Outcome.next.inj h).symm⟩

/-- In mode running, a word the decoder reads runs as its instruction (R120). -/
theorem stepWith_runs (opc : OpcodeMap) (s u : State) (i : Instr) (hm : s.mode = .running)
    (hd : decodeWith opc s.fetch = some i) (hu : exec i s = .next u) :
    stepWith opc s = .next (u.retire s.fetch) := by
  unfold stepWith
  rw [hm, hd]
  simp [hu]

/-- In mode running, a word the decoder rejects takes the fault (R126). -/
theorem stepWith_faults (opc : OpcodeMap) (s : State) (hm : s.mode = .running)
    (hd : decodeWith opc s.fetch = none) : stepWith opc s = .next (s.takeFault s.fetch) := by
  unfold stepWith
  rw [hm, hd]

/-- In any other mode nothing changes (R127). -/
theorem stepWith_stuck (opc : OpcodeMap) (s : State) (hm : s.mode ≠ .running) :
    stepWith opc s = .next s := by
  unfold stepWith
  cases h : s.mode with
  | running => exact absurd h hm
  | halted => rfl
  | fault => rfl

end Sys2Proof.Machine
end

