-- ==== Sys2Proof/Laws/HostOps.lean ====
section
/-! SUPPORT. What the host's step and run do, one equation per case (R257, R258), and what a load
writes (R259). -/

namespace Sys2Proof.Machine

/-- `step()` gives the state the step answers, with the error the step raises. -/
theorem hostStep_eq (opc : OpcodeMap) (s t : State) (h : stepWith opc s = .next t) :
    hostStep opc s = (t, stepError opc s) := by
  simp [hostStep, h]

/-- No error is reported outside mode running (R257). -/
theorem stepError_stuck (opc : OpcodeMap) (s : State) (hm : s.mode ≠ .running) :
    stepError opc s = none := by
  unfold stepError
  cases h : s.mode with
  | running => exact absurd h hm
  | halted => rfl
  | fault => rfl

/-- An error is reported exactly for a word the decoder rejects, in mode running (R224). -/
theorem stepError_running (opc : OpcodeMap) (s : State) (hm : s.mode = .running) :
    stepError opc s =
      if decodeWith opc s.fetch = none then some (.unrecognizedOpcode s.fetch) else none := by
  unfold stepError
  rw [hm]
  cases h : decodeWith opc s.fetch <;> simp

/-- A run makes no step outside mode running (R258). -/
theorem hostRun_stuck (opc : OpcodeMap) (n : Nat) (s : State) (hm : s.mode ≠ .running) :
    hostRun opc n s = (s, none) := by
  cases n with
  | zero => rfl
  | succ n =>
    unfold hostRun
    cases h : s.mode with
    | running => exact absurd h hm
    | halted => rfl
    | fault => rfl

/-- One turn of a run in mode running (R258). -/
theorem hostRun_running (opc : OpcodeMap) (n : Nat) (s : State) (hm : s.mode = .running) :
    hostRun opc (n + 1) s =
      if (hostStep opc s).2 = none then hostRun opc n (hostStep opc s).1 else hostStep opc s := by
  rw [hostRun, hm]
  rcases h : hostStep opc s with ⟨t, e⟩
  cases e <;> simp

/-- What every address reads after words were written from `start` on, if they fit (R259). -/
theorem writeWords_read (words : List Word) (m : Memory) (start : Nat) (b : Addr)
    (h : start + words.length ≤ memorySize) :
    (writeWords m start words).read b =
      if b.toNat < start then m.read b
      else (words[b.toNat - start]?).getD (m.read b) := by
  induction words generalizing m start with
  | nil => simp [writeWords]
  | cons w rest ih =>
    simp only [List.length_cons] at h
    have hs : start < 65536 := by unfold memorySize at h; omega
    have key : b = BitVec.ofNat 16 start ↔ b.toNat = start := by
      rw [← BitVec.toNat_inj, BitVec.toNat_ofNat, Nat.mod_eq_of_lt hs]
    rw [writeWords, ih (m.write (BitVec.ofNat 16 start) w) (start + 1) (by omega),
      Memory.read_write]
    by_cases h1 : b.toNat < start
    · have h2 : b.toNat < start + 1 := by omega
      have h3 : ¬ b = BitVec.ofNat 16 start := by rw [key]; omega
      simp [h1, h2, h3]
    · by_cases h4 : b.toNat = start
      · have h2 : b.toNat < start + 1 := by omega
        have h3 : b = BitVec.ofNat 16 start := key.mpr h4
        rw [if_pos h2, if_pos h3, if_neg h1]
        simp [h4]
      · have h2 : ¬ b.toNat < start + 1 := by omega
        have h3 : ¬ b = BitVec.ofNat 16 start := by rw [key]; omega
        have h5 : b.toNat - start = (b.toNat - (start + 1)) + 1 := by omega
        rw [if_neg h2, if_neg h3, if_neg h1, h5, List.getElem?_cons_succ]

/-- A load that fits writes its words and nothing else of the state (R259). -/
theorem hostMemLoad_ok (words : List Word) (start : Nat) (s : State) (h : start < memorySize)
    (hl : start + words.length ≤ memorySize) :
    hostMemLoad words start s = .ok { s with mem := writeWords s.mem start words } :=
  if_pos ⟨h, hl⟩

/-- A load from an address outside the memory, or past its end, is a range violation (R66, R259). -/
theorem hostMemLoad_error (words : List Word) (start : Nat) (s : State)
    (h : memorySize ≤ start ∨ memorySize < start + words.length) :
    hostMemLoad words start s = .error .rangeViolation :=
  if_neg (by omega)

/-- A load keeps the canonical form. -/
theorem writeWords_wf (words : List Word) (m : Memory) (start : Nat) (h : m.wf = true) :
    (writeWords m start words).wf = true := by
  induction words generalizing m start with
  | nil => exact h
  | cons w rest ih => exact ih _ _ (Memory.write_wf m _ w h)

end Sys2Proof.Machine
end

