-- ==== Sys2Proof/Laws/Operands.lean ====
section
/-! SUPPORT. What the operand forms are as numbers (R170, R171, R190, R200, R201). -/

namespace Sys2Proof.Machine

/-- LOADH's result as a number: the immediate times 2^16 plus the old lower half (R170). -/
theorem packHigh_toNat (imm : Half) (old : Word) :
    (packHigh imm old).toNat = imm.toNat * 2 ^ 16 + old.toNat % 2 ^ 16 := by
  simp only [packHigh, BitVec.toNat_append, BitVec.extractLsb'_toNat]
  rw [← Nat.shiftLeft_add_eq_or_of_lt (by omega), Nat.shiftLeft_eq, Nat.shiftRight_zero]

/-- LOADL's result as a number: the old upper half times 2^16 plus the immediate (R171). -/
theorem packLow_toNat (imm : Half) (old : Word) :
    (packLow imm old).toNat = old.toNat / 2 ^ 16 * 2 ^ 16 + imm.toNat := by
  have := old.isLt
  have := imm.isLt
  simp only [packLow, BitVec.toNat_append, BitVec.extractLsb'_toNat]
  rw [← Nat.shiftLeft_add_eq_or_of_lt (by omega), Nat.shiftLeft_eq, Nat.shiftRight_eq_div_pow]
  omega

/-- A branch target as a number: npc plus the signed offset modulo 65536 (R190). -/
theorem branchTarget_toInt (npc : Addr) (offset : Word) :
    ((branchTarget npc offset).toNat : Int) = ((npc.toNat : Int) + offset.toInt) % 65536 := by
  have h1 : (offset.toInt % 65536) = (offset.toNat : Int) % 65536 := by
    rw [BitVec.toInt_eq_toNat_cond]; split <;> omega
  rw [Int.add_emod, h1]
  simp only [branchTarget, BitVec.toNat_add, BitVec.toNat_setWidth]
  omega

/-- The incremented pc as a number: it wraps after 0xFFFF (R26). -/
theorem State.npc_toNat (s : State) : s.npc.toNat = (s.pc.toNat + 1) % 65536 := by
  simp [State.npc, BitVec.toNat_add]

/-- JR's target as a number: the register's low 16 bits (R201). -/
theorem jumpRegTarget_toNat (v : Word) : (jumpRegTarget v).toNat = v.toNat % 65536 := by
  simp [jumpRegTarget]

/-- The link value as a number: that of npc (R200). -/
theorem linkValue_toNat (npc : Addr) : (linkValue npc).toNat = npc.toNat := by
  have := npc.isLt
  simp [linkValue]
  omega

/-- A link value used as a JR target is the address it was made from (R200, R201). -/
theorem jumpRegTarget_linkValue (npc : Addr) : jumpRegTarget (linkValue npc) = npc := by
  apply BitVec.eq_of_toNat_eq
  have := npc.isLt
  rw [jumpRegTarget_toNat, linkValue_toNat]
  omega

end Sys2Proof.Machine
end

