-- ==== Sys2Proof/Laws/PerInstr.lean ====
section
/-! SUPPORT. Facts about every instruction as syntax, one lemma per constructor: where its opcode number
stands in its encoding, and that its fields are read back from there (R81, R86, R90). -/

namespace Sys2Proof.Laws

/-- The top byte of an encoded instruction is the number of its mnemonic (R81, R86). -/
def OpcodeByte.Statement (i : Instr) : Prop :=
  ∀ (opc : OpcodeMap) (m : Opcode), i.opcode = some m → opcodeField (encodeWith opc i) = opc m

/-- The fields of an encoded instruction are read back as they were, if it is well formed (R81,
R86). -/
def FieldsReadBack.Statement (i : Instr) : Prop :=
  i.wf = true → ∀ (opc : OpcodeMap) (m : Opcode), i.opcode = some m →
    fieldsOf m (encodeWith opc i) = i

theorem OpcodeByte.halt : OpcodeByte.Statement .halt := by
  intro opc m h; cases h

theorem OpcodeByte.add (ra rb rc : RegIdx) : OpcodeByte.Statement (.add ra rb rc) := by
  intro opc m h; cases h; simp [encodeWith]

theorem OpcodeByte.sub (ra rb rc : RegIdx) : OpcodeByte.Statement (.sub ra rb rc) := by
  intro opc m h; cases h; simp [encodeWith]

theorem OpcodeByte.zero (ra rb rc : RegIdx) : OpcodeByte.Statement (.zero ra rb rc) := by
  intro opc m h; cases h; simp [encodeWith]

theorem OpcodeByte.xor (ra rb rc : RegIdx) : OpcodeByte.Statement (.xor ra rb rc) := by
  intro opc m h; cases h; simp [encodeWith]

theorem OpcodeByte.or (ra rb rc : RegIdx) : OpcodeByte.Statement (.or ra rb rc) := by
  intro opc m h; cases h; simp [encodeWith]

theorem OpcodeByte.and (ra rb rc : RegIdx) : OpcodeByte.Statement (.and ra rb rc) := by
  intro opc m h; cases h; simp [encodeWith]

theorem OpcodeByte.not (ra rb rc : RegIdx) : OpcodeByte.Statement (.not ra rb rc) := by
  intro opc m h; cases h; simp [encodeWith]

theorem OpcodeByte.copy (ra rb rc : RegIdx) : OpcodeByte.Statement (.copy ra rb rc) := by
  intro opc m h; cases h; simp [encodeWith]

theorem OpcodeByte.sal (ra rb rc : RegIdx) : OpcodeByte.Statement (.sal ra rb rc) := by
  intro opc m h; cases h; simp [encodeWith]

theorem OpcodeByte.sll (ra rb rc : RegIdx) : OpcodeByte.Statement (.sll ra rb rc) := by
  intro opc m h; cases h; simp [encodeWith]

theorem OpcodeByte.sar (ra rb rc : RegIdx) : OpcodeByte.Statement (.sar ra rb rc) := by
  intro opc m h; cases h; simp [encodeWith]

theorem OpcodeByte.slr (ra rb rc : RegIdx) : OpcodeByte.Statement (.slr ra rb rc) := by
  intro opc m h; cases h; simp [encodeWith]

theorem OpcodeByte.loadh (ra : RegIdx) (imm : Half) : OpcodeByte.Statement (.loadh ra imm) := by
  intro opc m h; cases h; simp [encodeWith]

theorem OpcodeByte.loadl (ra : RegIdx) (imm : Half) : OpcodeByte.Statement (.loadl ra imm) := by
  intro opc m h; cases h; simp [encodeWith]

theorem OpcodeByte.lw (ra : RegIdx) (imm : Half) : OpcodeByte.Statement (.lw ra imm) := by
  intro opc m h; cases h; simp [encodeWith]

theorem OpcodeByte.sw (ra : RegIdx) (imm : Half) : OpcodeByte.Statement (.sw ra imm) := by
  intro opc m h; cases h; simp [encodeWith]

theorem OpcodeByte.jal (address : Addr) : OpcodeByte.Statement (.jal address) := by
  intro opc m h; cases h; simp [encodeWith]

theorem OpcodeByte.jr (rc : RegIdx) : OpcodeByte.Statement (.jr rc) := by
  intro opc m h; cases h; simp [encodeWith]

theorem OpcodeByte.j (address : Addr) : OpcodeByte.Statement (.j address) := by
  intro opc m h; cases h; simp [encodeWith]

theorem OpcodeByte.jeq (ra rb : RegIdx) (offset : Word) : OpcodeByte.Statement (.jeq ra rb offset) := by
  intro opc m h; cases h; simp [encodeWith]

theorem OpcodeByte.jne (ra rb : RegIdx) (offset : Word) : OpcodeByte.Statement (.jne ra rb offset) := by
  intro opc m h; cases h; simp [encodeWith]

theorem FieldsReadBack.halt : FieldsReadBack.Statement .halt := by
  intro _ opc m h; cases h

theorem FieldsReadBack.add (ra rb rc : RegIdx) : FieldsReadBack.Statement (.add ra rb rc) := by
  intro _ opc m h; cases h; simp [encodeWith, fieldsOf]

theorem FieldsReadBack.sub (ra rb rc : RegIdx) : FieldsReadBack.Statement (.sub ra rb rc) := by
  intro _ opc m h; cases h; simp [encodeWith, fieldsOf]

theorem FieldsReadBack.zero (ra rb rc : RegIdx) : FieldsReadBack.Statement (.zero ra rb rc) := by
  intro _ opc m h; cases h; simp [encodeWith, fieldsOf]

theorem FieldsReadBack.xor (ra rb rc : RegIdx) : FieldsReadBack.Statement (.xor ra rb rc) := by
  intro _ opc m h; cases h; simp [encodeWith, fieldsOf]

theorem FieldsReadBack.or (ra rb rc : RegIdx) : FieldsReadBack.Statement (.or ra rb rc) := by
  intro _ opc m h; cases h; simp [encodeWith, fieldsOf]

theorem FieldsReadBack.and (ra rb rc : RegIdx) : FieldsReadBack.Statement (.and ra rb rc) := by
  intro _ opc m h; cases h; simp [encodeWith, fieldsOf]

theorem FieldsReadBack.not (ra rb rc : RegIdx) : FieldsReadBack.Statement (.not ra rb rc) := by
  intro _ opc m h; cases h; simp [encodeWith, fieldsOf]

theorem FieldsReadBack.copy (ra rb rc : RegIdx) : FieldsReadBack.Statement (.copy ra rb rc) := by
  intro _ opc m h; cases h; simp [encodeWith, fieldsOf]

theorem FieldsReadBack.sal (ra rb rc : RegIdx) : FieldsReadBack.Statement (.sal ra rb rc) := by
  intro _ opc m h; cases h; simp [encodeWith, fieldsOf]

theorem FieldsReadBack.sll (ra rb rc : RegIdx) : FieldsReadBack.Statement (.sll ra rb rc) := by
  intro _ opc m h; cases h; simp [encodeWith, fieldsOf]

theorem FieldsReadBack.sar (ra rb rc : RegIdx) : FieldsReadBack.Statement (.sar ra rb rc) := by
  intro _ opc m h; cases h; simp [encodeWith, fieldsOf]

theorem FieldsReadBack.slr (ra rb rc : RegIdx) : FieldsReadBack.Statement (.slr ra rb rc) := by
  intro _ opc m h; cases h; simp [encodeWith, fieldsOf]

theorem FieldsReadBack.loadh (ra : RegIdx) (imm : Half) : FieldsReadBack.Statement (.loadh ra imm) := by
  intro _ opc m h; cases h; simp [encodeWith, fieldsOf]

theorem FieldsReadBack.loadl (ra : RegIdx) (imm : Half) : FieldsReadBack.Statement (.loadl ra imm) := by
  intro _ opc m h; cases h; simp [encodeWith, fieldsOf]

theorem FieldsReadBack.lw (ra : RegIdx) (imm : Half) : FieldsReadBack.Statement (.lw ra imm) := by
  intro _ opc m h; cases h; simp [encodeWith, fieldsOf]

theorem FieldsReadBack.sw (ra : RegIdx) (imm : Half) : FieldsReadBack.Statement (.sw ra imm) := by
  intro _ opc m h; cases h; simp [encodeWith, fieldsOf]

theorem FieldsReadBack.jal (address : Addr) : FieldsReadBack.Statement (.jal address) := by
  intro _ opc m h; cases h; simp [encodeWith, fieldsOf]

theorem FieldsReadBack.jr (rc : RegIdx) : FieldsReadBack.Statement (.jr rc) := by
  intro _ opc m h; cases h; simp [encodeWith, fieldsOf]

theorem FieldsReadBack.j (address : Addr) : FieldsReadBack.Statement (.j address) := by
  intro _ opc m h; cases h; simp [encodeWith, fieldsOf]

theorem FieldsReadBack.jeq (ra rb : RegIdx) (offset : Word) :
    FieldsReadBack.Statement (.jeq ra rb offset) := by
  intro hw opc m h; cases h
  have hr : offsetInRange offset = true := hw
  simp [encodeWith, fieldsOf, hr]

theorem FieldsReadBack.jne (ra rb : RegIdx) (offset : Word) :
    FieldsReadBack.Statement (.jne ra rb offset) := by
  intro hw opc m h; cases h
  have hr : offsetInRange offset = true := hw
  simp [encodeWith, fieldsOf, hr]

end Sys2Proof.Laws
end

