-- ==== Sys2Proof/Tests/Slice0.lean ====
section
/-! SUPPORT. Small tests, each on one word or one step, their expected results taken from the tables of
spec/95_test_vectors.md (its row in the comment) or worked by hand from the rule named; and one
witness for the hypotheses of each obligation that has some. -/

namespace Sys2Proof.Tests

open Sys2Proof Sys2Proof.Machine

/-! ## Well-formedness: what each check refuses -/

/-- R85: 8192 is above the range of a branch offset. -/
theorem test_wf_refuses_jeq_offset_above : (Instr.jeq 1 2 8192).wf = false := by decide
/-- R85: -8193 is below the range of a branch offset. -/
theorem test_wf_refuses_jeq_offset_below : (Instr.jeq 1 2 0xFFFFDFFF).wf = false := by decide
theorem test_wf_refuses_jne_offset_above : (Instr.jne 1 2 8192).wf = false := by decide
theorem test_wf_refuses_jne_offset_below : (Instr.jne 1 2 0xFFFFDFFF).wf = false := by decide
/-- R85: both ends of the range are legal. -/
theorem test_wf_accepts_offset_ends :
    (Instr.jeq 1 2 8191).wf = true ∧ (Instr.jne 1 2 0xFFFFE000).wf = true := by decide

/-- A numbering with two mnemonics on one number, which R88 forbids. -/
def clashingOpc : OpcodeMap := fun m => if m = .sub then 0x01 else defaultOpc m

/-- A numbering other than the default, with 0xFF for JNE and 0x00 for ADD: legal by R88 and R90. -/
def otherOpc : OpcodeMap := fun m =>
  if m = .jne then 0xFF else if m = .add then 0x00 else defaultOpc m

theorem test_opc_refuses_clash : opcWellFormed clashingOpc = false := by decide
theorem test_opc_accepts_default : opcWellFormed defaultOpc = true := by decide
theorem test_opc_accepts_other : opcWellFormed otherOpc = true := by decide

/-! ## Decoding: spec/95 table 2.1 and table 2.2 (one word or more per constructor) -/

theorem test_decode_add : decode 0x01104200 = some (.add 2 1 1) := by decide +kernel
theorem test_decode_add_unused_bits : decode 0x011043FF = some (.add 2 1 1) := by decide +kernel
theorem test_decode_add_largest : decode 0x01FFFE00 = some (.add 31 31 31) := by decide +kernel
theorem test_decode_sub : decode 0x02184400 = some (.sub 3 1 2) := by decide +kernel
theorem test_decode_zero : decode 0x03280000 = some (.zero 5 0 0) := by decide +kernel
theorem test_decode_xor : decode 0x04184400 = some (.xor 3 1 2) := by decide +kernel
theorem test_decode_or : decode 0x05184400 = some (.or 3 1 2) := by decide +kernel
theorem test_decode_and : decode 0x06184400 = some (.and 3 1 2) := by decide +kernel
theorem test_decode_not : decode 0x07184000 = some (.not 3 1 0) := by decide +kernel
theorem test_decode_copy : decode 0x08184000 = some (.copy 3 1 0) := by decide +kernel
theorem test_decode_sal : decode 0x09184400 = some (.sal 3 1 2) := by decide +kernel
theorem test_decode_sll : decode 0x0A184400 = some (.sll 3 1 2) := by decide +kernel
theorem test_decode_sar : decode 0x0B184400 = some (.sar 3 1 2) := by decide +kernel
theorem test_decode_slr : decode 0x0C184400 = some (.slr 3 1 2) := by decide +kernel
theorem test_decode_loadh : decode 0x0D0891A0 = some (.loadh 1 0x1234) := by decide +kernel
theorem test_decode_loadh_unused_bits : decode 0x0D0891A7 = some (.loadh 1 0x1234) := by decide +kernel
theorem test_decode_loadl : decode 0x0E0AB3C0 = some (.loadl 1 0x5678) := by decide +kernel
theorem test_decode_lw : decode 0x0FFFFFF8 = some (.lw 31 0xFFFF) := by decide +kernel
theorem test_decode_sw : decode 0x10180800 = some (.sw 3 0x0100) := by decide +kernel
theorem test_decode_jal : decode 0x11123400 = some (.jal 0x1234) := by decide +kernel
theorem test_decode_jal_unused_bits : decode 0x111234FF = some (.jal 0x1234) := by decide +kernel
theorem test_decode_jr : decode 0x12280000 = some (.jr 5) := by decide +kernel
theorem test_decode_jr_unused_bits : decode 0x122FFFFF = some (.jr 5) := by decide +kernel
theorem test_decode_j : decode 0x13FFFF00 = some (.j 0xFFFF) := by decide +kernel
theorem test_decode_jeq : decode 0x14089FFF = some (.jeq 1 2 8191) := by decide +kernel
theorem test_decode_jeq_minus_one : decode 0x14003FFF = some (.jeq 0 0 0xFFFFFFFF) := by decide +kernel
theorem test_decode_jne : decode 0x1508A000 = some (.jne 1 2 0xFFFFE000) := by decide +kernel
theorem test_decode_jne_minus_three : decode 0x15083FFD = some (.jne 1 0 0xFFFFFFFD) := by decide +kernel
theorem test_decode_halt : decode 0xFFFFFFFF = some (.halt) := by decide +kernel

/-- Table 2.1: the words the decoder refuses under the default numbering. -/
theorem test_decode_refuses :
    decode 0xFFFFFFFE = none ∧ decode 0xFF000000 = none ∧ decode 0x00000000 = none ∧
      decode 0x16000000 = none := by decide +kernel
/-- R89, R90: with 0xFF assigned, the all-ones word is still HALT and its neighbour is not. -/
theorem test_decode_other_numbering :
    decodeWith otherOpc 0xFFFFFFFF = some .halt ∧
      decodeWith otherOpc 0xFFFFFFFE = some (.jne 31 31 0xFFFFFFFE) ∧
      decodeWith otherOpc 0x00104200 = some (.add 2 1 1) := by decide +kernel
/-- R111: the record of a branch word carries the sign-extended offset. -/
theorem test_decode_record_b :
    decodeRecordWith defaultOpc 0x15083FFD = some (.b 0x15 1 0 0xFFFFFFFD) := by decide +kernel
/-- R81: format JR's field sits at bits [23:19]. -/
theorem test_decode_record_jr :
    decodeRecordWith defaultOpc 0x12F80000 = some (.jr 0x12 31) := by decide +kernel
/-- The host's numbering of bits: the table gives every row 32 bits. -/
theorem test_table_word :
    decodeTableWord 32 0x0F200800 = some (.lw 4 0x0100) ∧
      decodeTableWord 32 0xFFFFFFFF = some .halt := by decide +kernel

/-! ## Canonical encoding: spec/95 table 2.2 -/

/-- One word for each format. -/
theorem test_encode_words :
    encode (.add 31 31 31) = 0x01FFFE00 ∧ encode (.not 3 1 0) = 0x07184000 ∧
    encode (.loadl 1 0x5678) = 0x0E0AB3C0 ∧ encode (.lw 31 0xFFFF) = 0x0FFFFFF8 ∧
    encode (.jal 0x0040) = 0x11004000 ∧ encode (.j 0xFFFF) = 0x13FFFF00 ∧
    encode (.jr 31) = 0x12F80000 ∧ encode (.jne 1 2 0xFFFFE000) = 0x1508A000 ∧
    encode (.jeq 1 2 8191) = 0x14089FFF ∧ encode .halt = 0xFFFFFFFF := by decide +kernel

/-! ## The control unit (table 2.3) and the ALU block -/

theorem test_control_unit_rows :
    controlUnit defaultOpc (.i 0x0F 4 0x0100) =
      .ok ⟨none, true, true, false, true, false, false, .imm, .inc, false⟩ ∧
    controlUnit defaultOpc (.i 0x10 3 0x0100) =
      .ok ⟨none, false, false, true, false, false, false, .imm, .inc, false⟩ ∧
    controlUnit defaultOpc (.r 0x0C 3 1 2) =
      .ok ⟨some .slr, true, false, false, false, false, false, .reg, .inc, false⟩ ∧
    controlUnit defaultOpc .halt =
      .ok ⟨none, false, false, false, false, false, false, .reg, .halt, true⟩ := ⟨rfl, rfl, rfl, rfl⟩
/-- R116: an opcode that no row has, and one with another row's format. -/
theorem test_control_unit_fails :
    controlUnit defaultOpc (.jr 0x16 3) = .error (.controlOpcodeNotRecognized (.jr 0x16 3)) ∧
    controlUnit defaultOpc (.jr 0x01 3) = .error (.controlOpcodeNotRecognized (.jr 0x01 3)) :=
  ⟨rfl, rfl⟩
/-- R156: JEQ's number and an unassigned number are outside the twelve. -/
theorem test_alu_by_code :
    aluByCode defaultOpc 0x01 5 5 = .ok ⟨10, false, false⟩ ∧
    aluByCode defaultOpc 0x14 5 5 = .error (.invalidAluOpcode 0x14) ∧
    aluByCode defaultOpc 0xFF 5 5 = .error (.invalidAluOpcode 0xFF) := ⟨rfl, rfl, rfl⟩

/-- Table 2.5, corners of ADD and SUB. -/
theorem test_alu_add_corners :
    alu .add 0x80000000 0x80000000 = ⟨0, true, true⟩ ∧
    alu .add 0x7FFFFFFF 0x80000000 = ⟨0xFFFFFFFF, false, false⟩ ∧
    alu .add 0xFFFFFFFF 0xFFFFFFFF = ⟨0xFFFFFFFE, true, false⟩ := by decide +kernel
theorem test_alu_sub_corners :
    alu .sub 0x80000000 1 = ⟨0x7FFFFFFF, false, true⟩ ∧
    alu .sub 0 0x80000000 = ⟨0x80000000, true, true⟩ ∧
    alu .sub 0xFFFFFFFF 0x7FFFFFFF = ⟨0x80000000, false, false⟩ := by decide +kernel

/-! ## Single steps: spec/95 table 2.6 -/

/-- The reset state with pc, registers, flags (N, Z, C, V) and memory words set, and the word under
test at pc. -/
def before (pc : Addr) (w : Word) (regs : List (RegIdx × Word)) (flags : Flags := Flags.clear)
    (words : List (Addr × Word) := []) : State :=
  let s := regs.foldl (fun t r => t.writeReg r.1 r.2) { State.reset with pc := pc, flags := flags }
  (words.foldl (fun t c => t.writeMem c.1 c.2) s).writeMem pc w

/-- What a test looks at after one step: pc, mode, the flags, one register and one memory word. -/
def after (s : State) (r : RegIdx) (a : Addr) : Option (Addr × RunMode × Flags × Word × Word) :=
  match step s with
  | .next t => some (t.pc, t.mode, t.flags, t.readReg r, t.mem.read a)
  | .fault _ => none
  | .refused _ => none

/-- Row 2. -/
theorem test_step_add_overflow :
    after (before 0x0 0x01184400 [(1, 0x7FFFFFFF), (2, 0x1)] ⟨false, true, true, false⟩ []) 3 0xFFFF =
      some (0x1, .running, ⟨true, false, false, true⟩, 0x80000000, 0x0) := by decide +kernel
/-- Row 3. -/
theorem test_step_add_discarded_in_r0 :
    after (before 0x0 0x01004400 [(1, 0xFFFFFFFF), (2, 0x1)] ⟨false, false, false, false⟩ []) 0 0xFFFF =
      some (0x1, .running, ⟨false, true, true, false⟩, 0x0, 0x0) := by decide +kernel
/-- Row 6. -/
theorem test_step_sub_borrow :
    after (before 0x20 0x02184400 [(2, 0x1)] ⟨false, false, false, false⟩ []) 3 0xFFFF =
      some (0x21, .running, ⟨true, false, true, false⟩, 0xFFFFFFFF, 0x0) := by decide +kernel
/-- Row 7. -/
theorem test_step_sub_operand_order :
    after (before 0x20 0x02188200 [(2, 0x1)] ⟨false, false, false, false⟩ []) 3 0xFFFF =
      some (0x21, .running, ⟨false, false, false, false⟩, 0x1, 0x0) := by decide +kernel
/-- Row 10. -/
theorem test_step_zero :
    after (before 0x0 0x0329D200 [(5, 0x1), (7, 0x2), (9, 0x3)] ⟨true, false, true, true⟩ []) 5 0xFFFF =
      some (0x1, .running, ⟨false, true, false, false⟩, 0x0, 0x0) := by decide +kernel
/-- Row 11. -/
theorem test_step_xor :
    after (before 0x0 0x04184400 [(1, 0xFF00FF00), (2, 0xFF00FF0)] ⟨false, false, true, true⟩ []) 3 0xFFFF =
      some (0x1, .running, ⟨true, false, false, false⟩, 0xF0F0F0F0, 0x0) := by decide +kernel
/-- Row 12. -/
theorem test_step_or :
    after (before 0x0 0x05184400 [(1, 0xFF00FF00), (2, 0xFF00FF0)] ⟨false, false, false, false⟩ []) 3 0xFFFF =
      some (0x1, .running, ⟨true, false, false, false⟩, 0xFFF0FFF0, 0x0) := by decide +kernel
/-- Row 13. -/
theorem test_step_and :
    after (before 0x0 0x06184400 [(1, 0xFF00FF00), (2, 0xFF00FF0)] ⟨false, false, false, false⟩ []) 3 0xFFFF =
      some (0x1, .running, ⟨false, false, false, false⟩, 0xF000F00, 0x0) := by decide +kernel
/-- Row 15. -/
theorem test_step_not :
    after (before 0x0 0x07184400 [(1, 0xFFFF), (2, 0xFFFFFFFF)] ⟨false, false, false, false⟩ []) 3 0xFFFF =
      some (0x1, .running, ⟨true, false, false, false⟩, 0xFFFF0000, 0x0) := by decide +kernel
/-- Row 16. -/
theorem test_step_copy :
    after (before 0x0 0x08184000 [(1, 0x80000000)] ⟨false, false, false, false⟩ []) 3 0xFFFF =
      some (0x1, .running, ⟨true, false, false, false⟩, 0x80000000, 0x0) := by decide +kernel
/-- Row 18. -/
theorem test_step_sal :
    after (before 0x0 0x09184400 [(1, 0x40000001), (2, 0x1)] ⟨false, false, false, false⟩ []) 3 0xFFFF =
      some (0x1, .running, ⟨true, false, false, false⟩, 0x80000002, 0x0) := by decide +kernel
/-- Row 19. -/
theorem test_step_sll :
    after (before 0x0 0x0A184400 [(1, 0x40000001), (2, 0x21)] ⟨false, false, false, false⟩ []) 3 0xFFFF =
      some (0x1, .running, ⟨true, false, false, false⟩, 0x80000002, 0x0) := by decide +kernel
/-- Row 20. -/
theorem test_step_sar :
    after (before 0x0 0x0B184400 [(1, 0x80000000), (2, 0x4)] ⟨false, false, false, false⟩ []) 3 0xFFFF =
      some (0x1, .running, ⟨true, false, false, false⟩, 0xF8000000, 0x0) := by decide +kernel
/-- Row 21. -/
theorem test_step_slr :
    after (before 0x0 0x0C184400 [(1, 0x80000000), (2, 0x4)] ⟨false, false, false, false⟩ []) 3 0xFFFF =
      some (0x1, .running, ⟨false, false, false, false⟩, 0x8000000, 0x0) := by decide +kernel
/-- Row 22. -/
theorem test_step_slr_by_32 :
    after (before 0x0 0x0C184400 [(1, 0x80000000), (2, 0x20)] ⟨false, false, false, false⟩ []) 3 0xFFFF =
      some (0x1, .running, ⟨true, false, false, false⟩, 0x80000000, 0x0) := by decide +kernel
/-- Row 23. -/
theorem test_step_loadh :
    after (before 0x0 0x0D0891A0 [(1, 0xAAAA5678)] ⟨true, false, true, true⟩ []) 1 0xFFFF =
      some (0x1, .running, ⟨true, false, true, true⟩, 0x12345678, 0x0) := by decide +kernel
/-- Row 24. -/
theorem test_step_loadl :
    after (before 0x0 0x0E0AB3C0 [(1, 0x1234FFFF)] ⟨false, false, false, false⟩ []) 1 0xFFFF =
      some (0x1, .running, ⟨false, false, false, false⟩, 0x12345678, 0x0) := by decide +kernel
/-- Row 30. -/
theorem test_step_lw :
    after (before 0x0 0x0F200800 [(4, 0x100)] ⟨true, false, true, false⟩ [(0x100, 0xCAFEF00D), (0x200, 0x1)]) 4 0x100 =
      some (0x1, .running, ⟨true, false, true, false⟩, 0xCAFEF00D, 0xCAFEF00D) := by decide +kernel
/-- Row 32. -/
theorem test_step_lw_top_address :
    after (before 0x0 0x0F27FFF8 [] ⟨false, false, false, false⟩ [(0xFFFF, 0x11223344)]) 4 0xFFFF =
      some (0x1, .running, ⟨false, false, false, false⟩, 0x11223344, 0x11223344) := by decide +kernel
/-- Row 35. -/
theorem test_step_sw_zero :
    after (before 0x0 0x10000080 [] ⟨false, false, false, false⟩ [(0x10, 0x77)]) 0 0x10 =
      some (0x1, .running, ⟨false, false, false, false⟩, 0x0, 0x0) := by decide +kernel
/-- Row 37. -/
theorem test_step_sw_own_word :
    after (before 0x5 0x10180028 [(3, 0xABCD)] ⟨false, false, false, false⟩ []) 3 0x5 =
      some (0x6, .running, ⟨false, false, false, false⟩, 0xABCD, 0xABCD) := by decide +kernel
/-- Row 38. -/
theorem test_step_jeq_taken :
    after (before 0x10 0x14088003 [(1, 0x7), (2, 0x7)] ⟨false, false, false, false⟩ []) 1 0xFFFF =
      some (0x14, .running, ⟨false, false, false, false⟩, 0x7, 0x0) := by decide +kernel
/-- Row 49. -/
theorem test_step_jeq_differs_in_bit_31 :
    after (before 0x0 0x14088005 [(1, 0x80000000)] ⟨false, false, false, false⟩ []) 1 0xFFFF =
      some (0x1, .running, ⟨false, false, false, false⟩, 0x80000000, 0x0) := by decide +kernel
/-- Row 40. -/
theorem test_step_jne_taken_back :
    after (before 0x5 0x15083FFD [(1, 0x2)] ⟨false, true, false, false⟩ []) 1 0xFFFF =
      some (0x3, .running, ⟨false, true, false, false⟩, 0x2, 0x0) := by decide +kernel
/-- Row 47. -/
theorem test_step_jne_wraps :
    after (before 0x1000 0x1508A000 [(1, 0x1)] ⟨false, false, false, false⟩ []) 1 0xFFFF =
      some (0xF001, .running, ⟨false, false, false, false⟩, 0x1, 0x0) := by decide +kernel
/-- Row 51. -/
theorem test_step_jal :
    after (before 0xA 0x11004000 [(31, 0xFFFFFFFF)] ⟨true, true, true, true⟩ []) 31 0xFFFF =
      some (0x40, .running, ⟨true, true, true, true⟩, 0xB, 0x0) := by decide +kernel
/-- Row 52 with x31 = 7 before. -/
theorem test_step_jal_link_wraps :
    after (before 0xFFFF 0x11123400 [(31, 0x7)] ⟨false, false, false, false⟩ []) 31 0x0 =
      some (0x1234, .running, ⟨false, false, false, false⟩, 0x0, 0x0) := by decide +kernel
/-- Row 58. -/
theorem test_step_jr :
    after (before 0x0 0x12280000 [(5, 0x12345678)] ⟨false, false, false, false⟩ []) 5 0xFFFF =
      some (0x5678, .running, ⟨false, false, false, false⟩, 0x12345678, 0x0) := by decide +kernel
/-- Row 55. -/
theorem test_step_j :
    after (before 0x0 0x13FFFF00 [] ⟨false, false, false, false⟩ []) 31 0xFFFF =
      some (0xFFFF, .running, ⟨false, false, false, false⟩, 0x0, 0x0) := by decide +kernel
/-- Row 60. -/
theorem test_step_halt :
    after (before 0x8 0xFFFFFFFF [(1, 0x5)] ⟨false, true, false, false⟩ [(0x100, 0x6)]) 1 0x100 =
      some (0x8, .halted, ⟨false, true, false, false⟩, 0x5, 0x6) := by decide +kernel
/-- Row 62. -/
theorem test_step_fault :
    after (before 0x6 0x00000000 [(1, 0x5)] ⟨false, true, false, false⟩ [(0x100, 0x6)]) 1 0x100 =
      some (0x6, .fault, ⟨false, true, false, false⟩, 0x5, 0x6) := by decide +kernel

/-- R125, R223: ir and the counters after an ordinary step, after HALT and after a fault. -/
theorem test_step_common_effects :
    (hostStep defaultOpc (before 0 0x01104200 [(1, 5)])).1.ir = 0x01104200 ∧
    (hostStep defaultOpc (before 0 0x01104200 [(1, 5)])).1.cycleCount = 1 ∧
    (hostStep defaultOpc (before 8 0xFFFFFFFF [])).1.instructionCount = 1 ∧
    (hostStep defaultOpc (before 6 0xFF000000 [])).1.ir = 0xFF000000 ∧
    (hostStep defaultOpc (before 6 0xFF000000 [])).1.cycleCount = 0 := by decide +kernel
/-- Row 64: the error a faulting step reports. -/
theorem test_step_reports_the_error :
    (hostStep defaultOpc (before 6 0x16104200 [])).2 = some (.unrecognizedOpcode 0x16104200) ∧
    (hostStep defaultOpc (before 8 0xFFFFFFFF [])).2 = none := by decide +kernel
/-- The host's way to place an instruction, as the first one after reset. -/
theorem test_with_fetch_word :
    after (State.reset.withFetchWord 32 0x0E0FFFF8) 1 0xFFFF =
      some (1, .running, Flags.clear, 0x0000FFFF, 0) := by decide +kernel

/-! ## Host operations: spec/95 table 2.7 -/

/-- Rows 3, 5 and 10: what fails. -/
theorem test_host_range_violations (s : State) :
    hostRegRead 32 s = .error .rangeViolation ∧ hostMemRead 65536 s = .error .rangeViolation ∧
      hostMemWrite 65536 0 s = .error .rangeViolation ∧
      hostRegWrite 32 0 s = .error .rangeViolation := ⟨rfl, rfl, rfl, rfl⟩
theorem test_host_unknown_flag :
    hostFlagGet "parity" State.reset = .error (.unknownFlag "parity") := by decide +kernel
/-- R66, U11: a load at address 65536 fails even with no words, one at 65535 does not. -/
theorem test_host_load_start (s : State) :
    hostMemLoad [] 65536 s = .error .rangeViolation ∧ hostMemLoad [] 65535 s = .ok s := ⟨rfl, rfl⟩
/-- Rows 6 and 7: a load that fits, one that does not. -/
theorem test_host_load :
    (hostMemLoad [7, 8, 9] 0x0010 State.reset).toOption.map (fun s => s.mem.read 0x0012) = some 9 ∧
      hostMemLoad [7, 8] 65535 State.reset = .error .rangeViolation := by decide +kernel
/-- R51: what `dump` refuses. -/
theorem test_host_dump_fails (s : State) :
    hostMemDump 5 4 s = .error .rangeViolation ∧
      hostMemDump 0 65536 s = .error .rangeViolation := ⟨rfl, rfl⟩
/-- Rows 11 and 12: reset from mode fault and from mode halted. -/
theorem test_host_reset :
    hostReset (before 6 0x16104200 [(1, 5)]) = State.reset ∧
      hostReset (State.reset.setMode .halted) = State.reset := by decide +kernel
/-- Row 14: `run(0)` makes no step. -/
theorem test_host_run_zero (s : State) : hostRun defaultOpc 0 s = (s, none) := rfl
/-- R51, R256: the clears. -/
theorem test_host_clears :
    (hostMemClear (before 3 7 [])).mem = State.reset.mem ∧
      (hostRegClear (before 0 0 [(1, 5), (31, 6)])).regs = State.reset.regs ∧
      (hostFlagsClear (before 0 0 [] ⟨true, true, true, true⟩)).flags = Flags.clear := by
  decide +kernel

/-! ## The ports (R263) -/

/-- What the block shows while `LW r4, 0x0100` stands at pc 3. -/
theorem test_ports_lw :
    (portsOut defaultOpc (before 3 0x0F200800 [])).dmemAddr = 0x0100 ∧
      (portsOut defaultOpc (before 3 0x0F200800 [])).dmemRe = true ∧
      (portsOut defaultOpc (before 3 0x0F200800 [])).rfWaddr = 4 ∧
      (portsOut defaultOpc (before 3 0x0F200800 [] Flags.clear [(0x0100, 9)])).rfWdata = 9 := by
  decide +kernel
/-- A word the decoder rejects writes nothing. -/
theorem test_ports_fault :
    (portsOut defaultOpc (before 3 0x16104200 [])).rfWe = false ∧
      (portsOut defaultOpc (before 3 0x16104200 [])).dmemWe = false ∧
      (portsOut defaultOpc (before 3 0x16104200 [])).ctrlO = none := by decide +kernel

/-! ## Witnesses: the hypotheses of each obligation that has some can be met together -/

theorem test_witness_DecodeOfEncodeIsTheInstruction :
    (Instr.jeq 31 31 8191).wf = true ∧ (Instr.jne 0 0 0xFFFFE000).wf = true := by decide
theorem test_witness_RoundTripUnderEveryNumbering :
    opcWellFormed otherOpc = true ∧ (Instr.jne 31 31 0xFFFFFFFE).wf = true ∧
      encodeWith otherOpc (.jne 31 31 0xFFFFFFFE) ≠ 0xFFFFFFFF#32 ∧ Instr.halt.wf = true := by
  decide +kernel
/-- Why the sentinel is set apart: under `otherOpc` this well-formed branch has its word. -/
theorem test_branch_with_the_word_of_halt :
    encodeWith otherOpc (.jne 31 31 0xFFFFFFFF) = 0xFFFFFFFF#32 := by decide +kernel
theorem test_witness_DecodedWordReencodesToItsUsedBits :
    decodeWith otherOpc 0x122FFFFF = some (.jr 5) := by decide +kernel
theorem test_witness_DecodeIgnoresUnusedBits :
    (0x01104200#32 ≠ 0xFFFFFFFF#32) ∧ (0x011043FF#32 ≠ 0xFFFFFFFF#32) ∧
      decodeWith defaultOpc 0x01104200 = some (.add 2 1 1) ∧
      0x011043FF#32 &&& (Instr.add 2 1 1).format.usedBits =
        0x01104200#32 &&& (Instr.add 2 1 1).format.usedBits := by decide +kernel
theorem test_witness_OnlyTheSentinelIsHalt : 0xFFFFFFFE#32 ≠ 0xFFFFFFFF#32 := by decide
theorem test_witness_DecoderFollowsTheAlgorithm :
    opcWellFormed defaultOpc = true ∧ (0xFFFFFFFE#32 ≠ 0xFFFFFFFF#32) ∧
      (∀ m, defaultOpc m ≠ (0xFFFFFFFE#32).extractLsb' 24 8) ∧
      (0x15083FFD#32 ≠ 0xFFFFFFFF#32) ∧ defaultOpc .jne = (0x15083FFD#32).extractLsb' 24 8 :=
  ⟨by decide, by decide, by intro m; cases m <;> decide, by decide, by decide⟩
theorem test_witness_BranchOffsetIsSignExtendedInDecode :
    decodeWith defaultOpc 0x1508A000 = some (.jne 1 2 0xFFFFE000) ∧
      decodeWith defaultOpc 0x14089FFF = some (.jeq 1 2 0x00001FFF) ∧
      (0x1508A000#32).getLsbD 13 = true ∧ (0x14089FFF#32).getLsbD 13 = false := by decide +kernel
theorem test_witness_ShiftsUseTheLowFiveBits :
    AluOp.slr ∈ [AluOp.sal, AluOp.sll, AluOp.sar, AluOp.slr] ∧ (0x20#32).toNat % 32 = 0 := by decide
/-- An ALU instruction that writes, and one without an ALU operation. -/
theorem test_witness_FlagsAreUpdatedFromTheAluTriple (s : State) :
    (∃ t, exec (.sub 3 1 2) s = .next t) ∧ (signalsOf (.sub 3 1 2)).aluOp = some .sub ∧
      destReg (.sub 3 1 2) = some 3#5 ∧ (3#5 ≠ 0#5) ∧
      (∃ t, exec (.lw 4 0x0100) s = .next t) ∧ (signalsOf (.lw 4 0x0100)).aluOp = none :=
  ⟨⟨_, rfl⟩, rfl, rfl, by decide, ⟨_, rfl⟩, rfl⟩
theorem test_witness_AluBlockFailsOutsideTheTwelve :
    opcWellFormed defaultOpc = true ∧ aluOpOf .slr = some .slr ∧ (0x0C#8 = defaultOpc .slr) ∧
      (∀ m, (aluOpOf m).isSome = true → 0x0D#8 ≠ defaultOpc m) :=
  ⟨by decide, rfl, rfl, by intro m; cases m <;> decide⟩
/-- What takes the premise `r = d ∧ d ≠ 0` of `WritesReg` both ways, and the iffs of ADD and SUB. -/
theorem test_witness_WritesReg : (3#5 = 3#5 ∧ 3#5 ≠ 0#5) ∧ ¬ (0#5 = 0#5 ∧ 0#5 ≠ 0#5) := by decide
theorem test_witness_BitwiseResultFlagsAndFrame :
    ∀ i ∈ [Instr.xor 3 1 2, .or 3 1 2, .and 3 1 2], ∃ f : Bool → Bool → Bool,
      (i = .xor 3 1 2 ∧ f = Bool.xor) ∨ (i = .or 3 1 2 ∧ f = Bool.or) ∨
        (i = .and 3 1 2 ∧ f = Bool.and) := by
  intro i h
  fin_cases h
  · exact ⟨Bool.xor, .inl ⟨rfl, rfl⟩⟩
  · exact ⟨Bool.or, .inr (.inl ⟨rfl, rfl⟩)⟩
  · exact ⟨Bool.and, .inr (.inr ⟨rfl, rfl⟩)⟩
theorem test_witness_LeftShiftsMultiply :
    (Instr.sal 3 1 2 = .sal 3 1 2 ∨ Instr.sal 3 1 2 = .sll 3 1 2) ∧
      (Instr.sll 3 1 2 = .sal 3 1 2 ∨ Instr.sll 3 1 2 = .sll 3 1 2) := by decide
theorem test_witness_TwoHalfLoadsMakeAConstant : 1#5 ≠ 0#5 ∧ 31#5 ≠ 0#5 := by decide
/-- Both outcomes of both tests (rows 38, 39, 40 and 41). -/
theorem test_witness_BranchesGoToNpcPlusOffset :
    (before 0x10 0x14088003 [(1, 7), (2, 7)]).readReg 1 =
      (before 0x10 0x14088003 [(1, 7), (2, 7)]).readReg 2 ∧
    (before 0x10 0x14088003 [(1, 7), (2, 8)]).readReg 1 ≠
      (before 0x10 0x14088003 [(1, 7), (2, 8)]).readReg 2 := by decide +kernel
theorem test_witness_OnlyTheDestinationRegisterChanges (s : State) :
    (∃ t, exec (.jal 0x40) s = .next t) ∧ destReg (.jal 0x40) ≠ some 30 ∧
      (∃ t, exec (.sw 3 0xFFFF) s = .next t) ∧ destReg (.sw 3 0xFFFF) ≠ some 3 :=
  ⟨⟨_, rfl⟩, by decide, ⟨_, rfl⟩, by decide⟩
/-- Two states that differ in a register ADD does not read. -/
theorem test_witness_OnlySourceRegistersAreRead :
    let s := before 0 0x01184400 [(1, 5), (2, 6)]
    let s' := before 0 0x01184400 [(1, 5), (2, 6), (7, 9)]
    (∃ t t', exec (.add 3 1 2) s = .next t ∧ exec (.add 3 1 2) s' = .next t') ∧
      s.readReg 7 ≠ s'.readReg 7 ∧ (∀ r, r ∈ sourceRegs (.add 3 1 2) → s.readReg r = s'.readReg r) ∧
      s.pc = s'.pc ∧ s.mem = s'.mem ∧ destReg (.add 3 1 2) = some 3#5 ∧
      (signalsOf (.add 3 1 2)).aluOp ≠ none :=
  ⟨⟨_, _, rfl, rfl⟩, by decide +kernel, by decide +kernel, rfl, rfl, rfl, by decide⟩
/-- An instruction for each clause: SW, LW, J, JR, JNE, HALT and ADD. -/
theorem test_witness_SignalsTellTheEffects (s : State) :
    (∀ i ∈ [Instr.sw 3 0, .lw 4 0, .j 0, .jr 31, .jne 1 2 3, .halt, .add 2 1 1], ∃ t, exec i s = .next t) ∧
      (signalsOf (.sw 3 0)).regWrite = false ∧ (signalsOf (.lw 4 0)).memWrite = false ∧
      (signalsOf (.lw 4 0)).aluOp = none ∧ (signalsOf (.add 2 1 1)).pcSrc = .inc ∧
      (signalsOf (.j 0)).pcSrc = .jump ∧ (signalsOf (.jr 31)).pcSrc = .jump ∧
      (signalsOf (.jne 1 2 3)).pcSrc = .branch ∧
      (signalsOf .halt).pcSrc = .halt ∧ (signalsOf .halt).halt = true ∧
      (signalsOf (.j 0)).halt = false :=
  ⟨by intro i h; fin_cases h <;> exact ⟨_, rfl⟩, rfl, rfl, rfl, rfl, rfl, rfl, rfl, rfl, rfl, rfl⟩
theorem test_witness_SignalTableRows :
    aluOpOf .add = some .add ∧ Opcode.loadl ∈ [Opcode.loadh, Opcode.loadl] ∧
      Opcode.j ∈ [Opcode.jr, Opcode.j] ∧ Opcode.jne ∈ [Opcode.jeq, Opcode.jne] := by decide
theorem test_witness_ControlUnitAcceptsEveryDecodedWord :
    decodeWith defaultOpc 0x0F200800 = some (.lw 4 0x0100) ∧
      (Decoded.jr 0x16 3).opByte = some 0x16#8 ∧ (∀ m, defaultOpc m ≠ 0x16#8) :=
  ⟨by decide +kernel, rfl, by intro m; cases m <;> decide⟩
theorem test_witness_StepRunsTheDecodedInstruction :
    (before 0xFFFF 0x01104200 [(1, 5)]).mode = .running ∧
      decode ((before 0xFFFF 0x01104200 [(1, 5)]).mem.read (before 0xFFFF 0x01104200 [(1, 5)]).pc) =
        some (.add 2 1 1) := by decide +kernel
/-- The least and the greatest rejected word, and the sentinel between the clauses. -/
theorem test_witness_UnassignedOpcodeFaultsTheStep :
    (before 6 0 []).mode = .running ∧ ((before 6 0 []).fetch ≠ 0xFFFFFFFF#32 ∧
      ∀ m, defaultOpc m ≠ (before 6 0 []).fetch.extractLsb' 24 8) ∧
    (before 6 0xFFFFFFFE []).mode = .running ∧
    ((before 6 0xFFFFFFFE []).fetch ≠ 0xFFFFFFFF#32 ∧
      ∀ m, defaultOpc m ≠ (before 6 0xFFFFFFFE []).fetch.extractLsb' 24 8) ∧
    (before 6 0xFFFFFFFF []).mode = .running ∧
    ¬ ((before 6 0xFFFFFFFF []).fetch ≠ 0xFFFFFFFF#32 ∧
      ∀ m, defaultOpc m ≠ (before 6 0xFFFFFFFF []).fetch.extractLsb' 24 8) :=
  ⟨rfl, ⟨by decide +kernel, by intro m; cases m <;> decide +kernel⟩, rfl,
    ⟨by decide +kernel, by intro m; cases m <;> decide +kernel⟩, rfl, fun h => h.1 (by decide +kernel)⟩
theorem test_witness_FaultingStepKeepsFlagsAndCounters :
    (before 6 0x16104200 []).mode = .running ∧
      ∃ t, stepWith defaultOpc (before 6 0x16104200 []) = .next t ∧ t.mode = .fault :=
  ⟨rfl, _, rfl, rfl⟩
theorem test_witness_NothingHappensOutsideRunning :
    (State.reset.setMode .halted).mode = .halted ∧ (State.reset.setMode .fault).mode = .fault :=
  ⟨rfl, rfl⟩
theorem test_witness_ModeTransitions :
    (∃ t, stepWith defaultOpc (State.reset.setMode .fault) = .next t) ∧
      (State.reset.setMode .fault).mode ≠ .running ∧
      (∃ t, stepWith defaultOpc (before 8 0xFFFFFFFF []) = .next t ∧ t.mode = .halted) ∧
      (∃ t, stepWith defaultOpc (before 8 0 []) = .next t ∧ t.mode = .fault) :=
  ⟨⟨_, rfl⟩, by decide, ⟨_, rfl, rfl⟩, ⟨_, rfl, rfl⟩⟩
theorem test_witness_IrAndCountersFollowTheSteps :
    (before 8 0xFFFFFFFF []).mode = .running ∧ (before 8 0 []).mode = .running ∧
      (∃ t, stepWith defaultOpc (before 8 0xFFFFFFFF []) = .next t ∧ t.mode ≠ .fault) ∧
      (∃ t, stepWith defaultOpc (before 8 0 []) = .next t ∧ t.mode = .fault) :=
  ⟨rfl, rfl, ⟨_, rfl, by decide +kernel⟩, ⟨_, rfl, rfl⟩⟩
theorem test_witness_EveryStepKeepsTheInvariant :
    (before 0 0x10180800 [(3, 9)]).Inv ∧
      ∃ t, stepWith defaultOpc (before 0 0x10180800 [(3, 9)]) = .next t :=
  ⟨⟨by decide +kernel, by decide +kernel, rfl⟩, _, rfl⟩
theorem test_witness_ResetState :
    (before 6 0 []).mode = .running ∧ (State.reset.setMode .halted).mode = .halted := ⟨rfl, rfl⟩
/-- Two states of one program that differ in flags, ir and counters. -/
theorem test_witness_FlagsIrAndCountersNeverMatterToARun :
    ProgramEquiv State.reset
      { State.reset with flags := ⟨true, false, true, false⟩, ir := 7, cycleCount := 3 } :=
  ⟨fun _ => rfl, fun _ => rfl, rfl, rfl⟩
theorem test_witness_OnlySwChangesAMemoryWord :
    ∃ t, stepWith defaultOpc (before 0 0x101FFFF8 [(3, 9)]) = .next t ∧
      t.mem.read 0xFFFF ≠ (before 0 0x101FFFF8 [(3, 9)]).mem.read 0xFFFF :=
  ⟨_, rfl, by decide +kernel⟩
/-- Two steps of the endless loop `JEQ r0, r0, -1`, which stores nothing. -/
theorem test_witness_AWordStaysUntilItIsStoredTo :
    ∀ k, k < 2 → ∀ ra, (hostRun defaultOpc k (before 0 0x14003FFF [])).1.mode = .running →
      decodeWith defaultOpc (hostRun defaultOpc k (before 0 0x14003FFF [])).1.fetch ≠
        some (.sw ra 0xFFFF) := by
  have h : ∀ k < 2, decodeWith defaultOpc
      (hostRun defaultOpc k (before 0 0x14003FFF [])).1.fetch = some (.jeq 0 0 0xFFFFFFFF) := by
    decide +kernel
  intro k hk ra _ hs
  rw [h k hk] at hs
  cases hs
/-- SW to the next address, and SW to its own address (row 37). -/
theorem test_witness_AStoreIsSeenByTheNextFetch :
    (before 2 0x10180018 [(3, 9)]).mode = .running ∧
      decodeWith defaultOpc (before 2 0x10180018 [(3, 9)]).fetch = some (.sw 3 3) ∧
      (3 : Addr) = (before 2 0x10180018 [(3, 9)]).pc + 1 ∧
    (before 5 0x10180028 [(3, 9)]).mode = .running ∧
      decodeWith defaultOpc (before 5 0x10180028 [(3, 9)]).fetch = some (.sw 3 5) ∧
      (5 : Addr) = (before 5 0x10180028 [(3, 9)]).pc := by decide +kernel
theorem test_witness_RegisterZeroIsHardwired (s : State) :
    ∃ t, exec (.loadh 0 0xFFFF) s = .next t := ⟨_, rfl⟩
/-- The last register and the first index out of range. -/
theorem test_witness_HostRegisterAccess : 31 < 32 ∧ 0 < 31 ∧ (0 : Nat) ≠ 31 ∧ 32 ≤ 32 := by decide
theorem test_witness_MemWriteSetsOneWord : (0xFFFF : Addr) ≠ 0 := by decide
/-- The last address and the first one out of range. -/
theorem test_witness_HostMemoryAccess :
    65535 < 65536 ∧ (0 : Nat) ≠ 65535 ∧ 65536 ≤ 65536 := by decide
/-- A load that ends at the last word, an empty one that starts there, one that passes it, and an empty
one at 65536, with an address on each side. -/
theorem test_witness_LoadInstallsAllOrNothing :
    65534 < 65536 ∧ 65535 < 65536 ∧ 65535 + ([] : List Word).length ≤ 65536 ∧
      65536 ≤ 65536 ∧ 65534 + [(7 : Word), 8].length ≤ 65536 ∧ [(7 : Word), 8][1]? = some 8 ∧
      (0xFFFD : Addr).toNat < 65534 ∧ 65536 < 65535 + [(7 : Word), 8].length ∧
      0 + [(7 : Word), 8].length ≤ (2 : Addr).toNat := by decide
theorem test_witness_FlagsAreReachedByNameOnly :
    "overflow" ∈ ["negative", "zero", "carry", "overflow"] ∧ "zero" ≠ "overflow" ∧
      "parity" ∉ ["negative", "zero", "carry", "overflow"] := by decide
/-- A run that ends in mode fault and one that does not. -/
theorem test_witness_RunReportsExactlyTheFault :
    (before 6 0 []).mode = .running ∧
      (hostRun defaultOpc 1 (before 6 0 [])).1.mode = .fault ∧
      (before 8 0xFFFFFFFF []).mode = .running ∧
      (hostRun defaultOpc 1 (before 8 0xFFFFFFFF [])).1.mode ≠ .fault := by decide +kernel
/-- A program at the last word, an address on each side, and the two ways not to fit. -/
theorem test_witness_LaunchIsResetThenLoad :
    65535 < 65536 ∧ 65536 ≤ 65536 ∧ 65536 < 65535 + [(7 : Word), 8].length ∧
      65535 + [(7 : Word)].length ≤ 65536 ∧ [(7 : Word)][0]? = some 7 ∧
      (0xFFFE : Addr).toNat < 65535 ∧ 0 + [(7 : Word)].length ≤ (1 : Addr).toNat := by decide
theorem test_witness_CanonicalMemoriesAreEqualWhenTheirWordsAre :
    (Memory.mk [(0, 1), (65535, 2)]).wf = true ∧
      ∀ a, (Memory.mk [(0, 1), (65535, 2)]).read a = (Memory.mk [(0, 1), (65535, 2)]).read a :=
  ⟨by decide +kernel, fun _ => rfl⟩
/-- What the canonical form refuses: a listed 0, keys out of order, a key beyond the memory. -/
theorem test_memory_wf_refuses :
    (Memory.mk [(0, 0)]).wf = false ∧ (Memory.mk [(2, 1), (1, 1)]).wf = false ∧
      (Memory.mk [(1, 1), (1, 2)]).wf = false ∧ (Memory.mk [(65536, 1)]).wf = false := by
  decide +kernel

end Sys2Proof.Tests
end

section
/-! PROOFS. The state: what an instruction, a step and the host may change of it and what they may read
of it (spec/10_state.md). First the instructions sorted by the meaning they share, then what exec does to
each part of the state, then the statements. -/

namespace Sys2Proof

/-! ## The twelve ALU instructions as one -/

/-- The ALU instruction of an operation (R87): with it a proof over all instructions treats the
template of R154 once. -/
def aluInstr (op : AluOp) (ra rb rc : RegIdx) : Instr :=
  match op with
  | .add => .add ra rb rc
  | .sub => .sub ra rb rc
  | .zero => .zero ra rb rc
  | .xor => .xor ra rb rc
  | .or => .or ra rb rc
  | .and => .and ra rb rc
  | .not => .not ra rb rc
  | .copy => .copy ra rb rc
  | .sal => .sal ra rb rc
  | .sll => .sll ra rb rc
  | .sar => .sar ra rb rc
  | .slr => .slr ra rb rc

/-- Case analysis on an instruction with the twelve ALU instructions as one case, for
`cases i using Instr.aluCases`. -/
theorem Instr.aluCases {motive : Instr → Prop} (halt : motive .halt)
    (alu : ∀ op ra rb rc, motive (aluInstr op ra rb rc))
    (loadh : ∀ ra imm, motive (.loadh ra imm)) (loadl : ∀ ra imm, motive (.loadl ra imm))
    (lw : ∀ ra imm, motive (.lw ra imm)) (sw : ∀ ra imm, motive (.sw ra imm))
    (jal : ∀ address, motive (.jal address)) (jr : ∀ rc, motive (.jr rc))
    (j : ∀ address, motive (.j address))
    (jeq : ∀ ra rb offset, motive (.jeq ra rb offset))
    (jne : ∀ ra rb offset, motive (.jne ra rb offset)) (i : Instr) : motive i := by
  cases i with
  | halt => exact halt
  | add ra rb rc => exact alu .add ra rb rc
  | sub ra rb rc => exact alu .sub ra rb rc
  | zero ra rb rc => exact alu .zero ra rb rc
  | xor ra rb rc => exact alu .xor ra rb rc
  | or ra rb rc => exact alu .or ra rb rc
  | and ra rb rc => exact alu .and ra rb rc
  | not ra rb rc => exact alu .not ra rb rc
  | copy ra rb rc => exact alu .copy ra rb rc
  | sal ra rb rc => exact alu .sal ra rb rc
  | sll ra rb rc => exact alu .sll ra rb rc
  | sar ra rb rc => exact alu .sar ra rb rc
  | slr ra rb rc => exact alu .slr ra rb rc
  | loadh ra imm => exact loadh ra imm
  | loadl ra imm => exact loadl ra imm
  | lw ra imm => exact lw ra imm
  | sw ra imm => exact sw ra imm
  | jal address => exact jal address
  | jr rc => exact jr rc
  | j address => exact j address
  | jeq ra rb offset => exact jeq ra rb offset
  | jne ra rb offset => exact jne ra rb offset

@[simp] theorem aluInstr_ne_halt (op : AluOp) (ra rb rc : RegIdx) :
    aluInstr op ra rb rc ≠ .halt := by
  cases op <;> exact Instr.noConfusion

/-- The decoder answers HALT for the sentinel alone (R89). -/
theorem decodeWith_eq_halt_iff (opc : OpcodeMap) (w : Word) :
    decodeWith opc w = some .halt ↔ w = haltWord := by
  constructor
  · intro h
    obtain ⟨hw, -⟩ | ⟨-, m, -, hm⟩ := decodeWith_cases opc w .halt h
    · exact hw
    · have hop := fieldsOf_opcode m w
      rw [← hm] at hop
      cases hop
  · rintro rfl
    exact decodeWith_haltWord opc

namespace Machine

@[simp] theorem destReg_aluInstr (op : AluOp) (ra rb rc : RegIdx) :
    destReg (aluInstr op ra rb rc) = some ra := by
  cases op <;> rfl

@[simp] theorem sourceRegs_aluInstr (op : AluOp) (ra rb rc : RegIdx) :
    sourceRegs (aluInstr op ra rb rc) = [rb, rc] := by
  cases op <;> rfl

/-- Every ALU instruction runs the template of R154 over its own operation. -/
theorem exec_aluInstr (op : AluOp) (ra rb rc : RegIdx) (s : State) :
    exec (aluInstr op ra rb rc) s = execAlu op ra rb rc s := by
  cases op <;> rfl

/-- What an ALU instruction leaves. -/
theorem exec_aluInstr_next (op : AluOp) (ra rb rc : RegIdx) (s t : State)
    (h : exec (aluInstr op ra rb rc) s = .next t) :
    t = ((s.writeReg ra (alu op (s.readReg rb) (s.readReg rc)).result).setFlags
      (flagsOf (alu op (s.readReg rb) (s.readReg rc)))).setPc s.npc :=
  execAlu_next op ra rb rc s t (exec_aluInstr op ra rb rc s ▸ h)

/-! ## What exec does to each part of the state -/

/-- What a register reads after it was written itself (R21). -/
theorem State.readReg_writeReg_self (s : State) (i : RegIdx) (v : Word) :
    (s.writeReg i v).readReg i = if i = 0#5 then 0#32 else v := by
  split
  · next h => rw [h, State.readReg_zero]
  · next h => exact State.readReg_writeReg_same s i v h

/-- A write to the destination leaves every register that is not the destination (R124). -/
theorem State.readReg_writeReg_of_not_dest (s : State) (d r : RegIdx) (v : Word)
    (h : some d ≠ some r) : (s.writeReg d v).readReg r = s.readReg r :=
  State.readReg_writeReg_other s d r v fun e => h (congrArg some e.symm)

/-- A write of one value to the destination in two states makes it read the same in both (R21, R124). -/
theorem State.readReg_writeReg_of_dest (s s' : State) {d r : RegIdx} {v v' : Word} (hv : v = v')
    (h : some d = some r) : (s.writeReg d v).readReg r = (s'.writeReg d v').readReg r := by
  cases h
  rw [State.readReg_writeReg_self, State.readReg_writeReg_self, hv]

/-- Every instruction has a next state from every state. -/
theorem exec_total (i : Instr) (s : State) : ∃ t, exec i s = .next t := by
  cases i using Instr.aluCases with
  | alu op ra rb rc => exact ⟨_, exec_aluInstr op ra rb rc s⟩
  | _ => exact ⟨_, rfl⟩

/-- Mode, ir and the counters after an instruction's own rule: HALT alone touches one of them (R125,
R210). -/
theorem exec_control (i : Instr) (s t : State) (h : exec i s = .next t) :
    t.mode = (if i = .halt then .halted else s.mode) ∧ t.ir = s.ir ∧
      t.cycleCount = s.cycleCount ∧ t.instructionCount = s.instructionCount := by
  cases i using Instr.aluCases with
  | halt => obtain rfl := execHalt_next s t h; simp
  | alu op ra rb rc => obtain rfl := exec_aluInstr_next op ra rb rc s t h; simp
  | loadh ra imm => obtain rfl := execLoadh_next ra imm s t h; simp
  | loadl ra imm => obtain rfl := execLoadl_next ra imm s t h; simp
  | lw ra imm => obtain rfl := execLw_next ra imm s t h; simp
  | sw ra imm => obtain rfl := execSw_next ra imm s t h; simp
  | jal address => obtain rfl := execJal_next address s t h; simp
  | jr rc => obtain rfl := execJr_next rc s t h; simp
  | j address => obtain rfl := execJ_next address s t h; simp
  | jeq ra rb offset => obtain rfl := execJeq_next ra rb offset s t h; simp [branchIf_eq]
  | jne ra rb offset => obtain rfl := execJne_next ra rb offset s t h; simp [branchIf_eq]

theorem exec_mode (i : Instr) (s t : State) (h : exec i s = .next t) :
    t.mode = if i = .halt then .halted else s.mode :=
  (exec_control i s t h).1

/-- The two modes an instruction can leave a running machine in: never mode fault. -/
theorem exec_mode_of_running (i : Instr) (s t : State) (hm : s.mode = .running)
    (h : exec i s = .next t) : (t.mode = .halted ↔ i = .halt) ∧ t.mode ≠ .fault := by
  rw [exec_mode i s t h, hm]
  split
  · next hi => simp [hi]
  · next hi => simp [hi]

/-! ## What an instruction writes and reads -/

/-- Settles O30, by cases on what the instruction writes. -/
theorem onlyTheDestinationRegisterChanges : Obligations.OnlyTheDestinationRegisterChanges := by
  intro i s t r h hd
  cases i using Instr.aluCases with
  | halt => rw [execHalt_next s t h, State.setMode_readReg]
  | alu op ra rb rc =>
    rw [destReg_aluInstr] at hd
    rw [exec_aluInstr_next op ra rb rc s t h]
    exact s.readReg_writeReg_of_not_dest ra r _ hd
  | loadh ra imm =>
    rw [execLoadh_next ra imm s t h]
    exact s.readReg_writeReg_of_not_dest ra r _ hd
  | loadl ra imm =>
    rw [execLoadl_next ra imm s t h]
    exact s.readReg_writeReg_of_not_dest ra r _ hd
  | lw ra imm =>
    rw [execLw_next ra imm s t h]
    exact s.readReg_writeReg_of_not_dest ra r _ hd
  | sw ra imm => rw [execSw_next ra imm s t h, State.setPc_readReg, State.writeMem_readReg]
  | jal address =>
    rw [execJal_next address s t h]
    exact s.readReg_writeReg_of_not_dest linkReg r _ hd
  | jr rc => rw [execJr_next rc s t h, State.setPc_readReg]
  | j address => rw [execJ_next address s t h, State.setPc_readReg]
  | jeq ra rb offset => rw [execJeq_next ra rb offset s t h, branchIf_eq, State.setPc_readReg]
  | jne ra rb offset => rw [execJne_next ra rb offset s t h, branchIf_eq, State.setPc_readReg]

/-- Settles O31, by cases on what the instruction writes: each value written is a function of pc, the
memory and the source registers. The signals of every case but the ALU's have no ALU operation, so that
only there the flags are in question. -/
theorem onlySourceRegistersAreRead : Obligations.OnlySourceRegistersAreRead := by
  intro i s s' t t' h h' hr hpc hmem
  have hnpc : s.npc = s'.npc := congrArg (· + 1) hpc
  cases i using Instr.aluCases with
  | halt =>
    obtain rfl := execHalt_next s t h
    obtain rfl := execHalt_next s' t' h'
    exact ⟨hpc, hmem, nofun, fun hop => absurd rfl hop⟩
  | alu op ra rb rc =>
    obtain rfl := exec_aluInstr_next op ra rb rc s t h
    obtain rfl := exec_aluInstr_next op ra rb rc s' t' h'
    have hb : s.readReg rb = s'.readReg rb := hr rb (by simp)
    have hc : s.readReg rc = s'.readReg rc := hr rc (by simp)
    simp [hnpc, hmem, hb, hc, State.readReg_writeReg_self]
  | loadh ra imm =>
    obtain rfl := execLoadh_next ra imm s t h
    obtain rfl := execLoadh_next ra imm s' t' h'
    have ha : s.readReg ra = s'.readReg ra := hr ra (by simp [sourceRegs])
    exact ⟨hnpc, by simpa using hmem,
      fun _ => s.readReg_writeReg_of_dest s' (congrArg (packHigh imm) ha), fun hop => absurd rfl hop⟩
  | loadl ra imm =>
    obtain rfl := execLoadl_next ra imm s t h
    obtain rfl := execLoadl_next ra imm s' t' h'
    have ha : s.readReg ra = s'.readReg ra := hr ra (by simp [sourceRegs])
    exact ⟨hnpc, by simpa using hmem,
      fun _ => s.readReg_writeReg_of_dest s' (congrArg (packLow imm) ha), fun hop => absurd rfl hop⟩
  | lw ra imm =>
    obtain rfl := execLw_next ra imm s t h
    obtain rfl := execLw_next ra imm s' t' h'
    exact ⟨hnpc, by simpa using hmem, fun _ => s.readReg_writeReg_of_dest s' (hmem _),
      fun hop => absurd rfl hop⟩
  | sw ra imm =>
    obtain rfl := execSw_next ra imm s t h
    obtain rfl := execSw_next ra imm s' t' h'
    have ha : s.readReg ra = s'.readReg ra := hr ra (by simp [sourceRegs])
    refine ⟨hnpc, ?_, nofun, fun hop => absurd rfl hop⟩
    simp [Memory.read_write, ha, hmem]
  | jal address =>
    obtain rfl := execJal_next address s t h
    obtain rfl := execJal_next address s' t' h'
    exact ⟨rfl, by simpa using hmem,
      fun _ => s.readReg_writeReg_of_dest s' (congrArg linkValue hnpc), fun hop => absurd rfl hop⟩
  | jr rc =>
    obtain rfl := execJr_next rc s t h
    obtain rfl := execJr_next rc s' t' h'
    have hc : s.readReg rc = s'.readReg rc := hr rc (by simp [sourceRegs])
    exact ⟨congrArg jumpRegTarget hc, hmem, nofun, fun hop => absurd rfl hop⟩
  | j address =>
    obtain rfl := execJ_next address s t h
    obtain rfl := execJ_next address s' t' h'
    exact ⟨rfl, hmem, nofun, fun hop => absurd rfl hop⟩
  | jeq ra rb offset =>
    obtain rfl := execJeq_next ra rb offset s t h
    obtain rfl := execJeq_next ra rb offset s' t' h'
    have ha : s.readReg ra = s'.readReg ra := hr ra (by simp [sourceRegs])
    have hb : s.readReg rb = s'.readReg rb := hr rb (by simp [sourceRegs])
    exact ⟨by simp [branchIf_eq, ha, hb, hnpc], hmem, nofun, fun hop => absurd rfl hop⟩
  | jne ra rb offset =>
    obtain rfl := execJne_next ra rb offset s t h
    obtain rfl := execJne_next ra rb offset s' t' h'
    have ha : s.readReg ra = s'.readReg ra := hr ra (by simp [sourceRegs])
    have hb : s.readReg rb = s'.readReg rb := hr rb (by simp [sourceRegs])
    exact ⟨by simp [branchIf_eq, ha, hb, hnpc], hmem, nofun, fun hop => absurd rfl hop⟩

/-! ## States a program cannot tell apart (R33, R35) -/

theorem ProgramEquiv.mode_eq {s s' : State} (h : ProgramEquiv s s') : s.mode = s'.mode := by
  obtain ⟨-, -, -, hmode⟩ := h
  exact hmode

/-- Such states fetch the same word. -/
theorem ProgramEquiv.fetch_eq {s s' : State} (h : ProgramEquiv s s') : s.fetch = s'.fetch := by
  obtain ⟨-, hmem, hpc, -⟩ := h
  simp only [State.fetch, hmem, hpc]

/-- Such states raise the same error. -/
theorem ProgramEquiv.stepError_eq (opc : OpcodeMap) {s s' : State} (h : ProgramEquiv s s') :
    stepError opc s = stepError opc s' := by
  have hmode := h.mode_eq
  by_cases hm : s.mode = .running
  · rw [stepError_running opc s hm, stepError_running opc s' (hmode ▸ hm), h.fetch_eq]
  · rw [stepError_stuck opc s hm, stepError_stuck opc s' (hmode ▸ hm)]

/-- An instruction keeps such states so: what it writes depends on registers, memory and pc only, and
what it does not write stays. -/
theorem ProgramEquiv.of_exec (i : Instr) {s s' t t' : State} (h : ProgramEquiv s s')
    (ht : exec i s = .next t) (ht' : exec i s' = .next t') : ProgramEquiv t t' := by
  obtain ⟨hreg, hmem, hpc, hmode⟩ := h
  obtain ⟨hpc', hmem', hdest, -⟩ :=
    onlySourceRegistersAreRead i s s' t t' ht ht' (fun r _ => hreg r) hpc hmem
  have hreg' : ∀ r, t.readReg r = t'.readReg r := by
    intro r
    by_cases hd : destReg i = some r
    · exact hdest r hd
    · rw [onlyTheDestinationRegisterChanges i s t r ht hd,
        onlyTheDestinationRegisterChanges i s' t' r ht' hd, hreg r]
  exact ⟨hreg', hmem', hpc', by rw [exec_mode i s t ht, exec_mode i s' t' ht', hmode]⟩

/-- Retiring keeps such states so, as it writes ir and the counters only. -/
theorem ProgramEquiv.retire {s s' : State} (w w' : Word) (h : ProgramEquiv s s') :
    ProgramEquiv (s.retire w) (s'.retire w') := h

/-- The fault keeps such states so: it writes the same mode in both, and ir. -/
theorem ProgramEquiv.takeFault {s s' : State} (w w' : Word) (h : ProgramEquiv s s') :
    ProgramEquiv (s.takeFault w) (s'.takeFault w') := by
  obtain ⟨hreg, hmem, hpc, -⟩ := h
  exact ⟨hreg, hmem, hpc, rfl⟩

/-- From such states one step answers such states again. -/
theorem ProgramEquiv.of_stepWith (opc : OpcodeMap) {s s' : State} (h : ProgramEquiv s s') :
    ∃ t t', stepWith opc s = .next t ∧ stepWith opc s' = .next t' ∧ ProgramEquiv t t' := by
  have hmode := h.mode_eq
  by_cases hm : s.mode = .running
  · cases hd : decodeWith opc s.fetch with
    | none =>
      exact ⟨_, _, stepWith_faults opc s hm hd,
        stepWith_faults opc s' (hmode ▸ hm) (h.fetch_eq ▸ hd), h.takeFault _ _⟩
    | some i =>
      obtain ⟨u, hu⟩ := exec_total i s
      obtain ⟨u', hu'⟩ := exec_total i s'
      exact ⟨_, _, stepWith_runs opc s u i hm hd hu,
        stepWith_runs opc s' u' i (hmode ▸ hm) (h.fetch_eq ▸ hd) hu',
        (h.of_exec i hu hu').retire _ _⟩
  · exact ⟨s, s', stepWith_stuck opc s hm, stepWith_stuck opc s' (hmode ▸ hm), h⟩

/-- The host's step answers such states again, with the same error. -/
theorem ProgramEquiv.of_hostStep (opc : OpcodeMap) {s s' : State} (h : ProgramEquiv s s') :
    ProgramEquiv (hostStep opc s).1 (hostStep opc s').1 ∧
      (hostStep opc s).2 = (hostStep opc s').2 := by
  obtain ⟨t, t', ht, ht', htt'⟩ := h.of_stepWith opc
  rw [hostStep_eq opc s t ht, hostStep_eq opc s' t' ht']
  exact ⟨htt', h.stepError_eq opc⟩

/-- Settles O45, by induction on the length of the run: the two runs take the same turn, since they
stop in the same mode and on the same error. -/
theorem flagsIrAndCountersNeverMatterToARun :
    Obligations.FlagsIrAndCountersNeverMatterToARun := by
  intro opc n
  induction n with
  | zero => exact fun s s' h => h
  | succ n ih =>
    intro s s' h
    have hmode := h.mode_eq
    by_cases hm : s.mode = .running
    · obtain ⟨hstep, herr⟩ := h.of_hostStep opc
      rw [hostRun_running opc n s hm, hostRun_running opc n s' (hmode ▸ hm), herr]
      split
      · exact ih _ _ hstep
      · exact hstep
    · rw [hostRun_stuck opc _ s hm, hostRun_stuck opc _ s' (hmode ▸ hm)]
      exact h

/-! ## Mode, ir and the counters over a step -/

/-- Settles O40, by the three things a step can do. -/
theorem modeTransitions : Obligations.ModeTransitions := by
  intro opc s t h
  obtain ⟨hm, rfl⟩ | ⟨hm, hd, rfl⟩ | ⟨hm, i, u, hd, hu, rfl⟩ := stepWith_cases opc s t h
  · exact ⟨fun _ => rfl, fun e => absurd e hm, fun e => absurd e hm⟩
  · have hw : s.fetch ≠ haltWord := by
      intro e
      rw [e, decodeWith_haltWord] at hd
      cases hd
    exact ⟨fun e => absurd hm e, fun _ => ⟨nofun, fun e => absurd e hw⟩, fun _ => by simp [hd]⟩
  · obtain ⟨hhalt, hfault⟩ := exec_mode_of_running i s u hm hu
    have hi : i = .halt ↔ s.fetch = haltWord := by
      rw [← decodeWith_eq_halt_iff opc, hd, Option.some.injEq]
    exact ⟨fun e => absurd hm e, fun _ => hhalt.trans hi, fun _ => by simp [hd, hfault]⟩

/-- Settles O41, by the two things a step from mode running can do. -/
theorem irAndCountersFollowTheSteps : Obligations.IrAndCountersFollowTheSteps := by
  intro opc s t hm h
  obtain ⟨hm', -⟩ | ⟨-, -, rfl⟩ | ⟨-, i, u, -, hu, rfl⟩ := stepWith_cases opc s t h
  · exact absurd hm hm'
  · exact ⟨rfl, fun e => absurd rfl e, fun _ => ⟨rfl, rfl⟩⟩
  · obtain ⟨-, -, hcycle, hinstr⟩ := exec_control i s u hu
    obtain ⟨-, hfault⟩ := exec_mode_of_running i s u hm hu
    exact ⟨rfl, fun _ => by simp [hcycle, hinstr], fun e => absurd e hfault⟩

/-! ## The flags by name -/

/-- A flag set by one of the four names is got by that name, and every other name gets what it got
before (R31, R260). -/
theorem setFlagByName_of_mem (f : Flags) (name : String) (v : Bool)
    (h : name ∈ ["negative", "zero", "carry", "overflow"]) :
    ∃ f', setFlagByName f name v = some f' ∧ flagByName f' name = some v ∧
      ∀ other, other ≠ name → flagByName f' other = flagByName f other := by
  simp only [List.mem_cons, List.not_mem_nil, or_false] at h
  obtain rfl | rfl | rfl | rfl := h
  · exact ⟨{ f with negative := v }, rfl, by simp [flagByName],
      fun other ho => by simp [flagByName, ho]⟩
  · exact ⟨{ f with zero := v }, rfl, by simp [flagByName],
      fun other ho => by simp [flagByName, ho]⟩
  · exact ⟨{ f with carry := v }, rfl, by simp [flagByName],
      fun other ho => by simp [flagByName, ho]⟩
  · exact ⟨{ f with overflow := v }, rfl, by simp [flagByName],
      fun other ho => by simp [flagByName, ho]⟩

/-- Any other name reaches no flag (R222). -/
theorem flagByName_of_not_mem (f : Flags) (name : String) (v : Bool)
    (h : name ∉ ["negative", "zero", "carry", "overflow"]) :
    flagByName f name = none ∧ setFlagByName f name v = none := by
  simp only [List.mem_cons, List.not_mem_nil, or_false, not_or] at h
  obtain ⟨hn, hz, hc, ho⟩ := h
  simp [flagByName, setFlagByName, hn, hz, hc, ho]

/-- Settles O54: the host's operations are the flags' own, and write no other part of the state. -/
theorem flagsAreReachedByNameOnly : Obligations.FlagsAreReachedByNameOnly := by
  intro name other v s
  constructor
  · intro h
    obtain ⟨f', hset, hsame, hother⟩ := setFlagByName_of_mem s.flags name v h
    refine ⟨s.setFlags f', by simp [hostFlagSet, hset], by simp [hostFlagGet, hsame], ?_,
      fun _ _ => rfl, fun _ _ => rfl, ⟨rfl, rfl, rfl, rfl⟩, rfl⟩
    intro ho
    simp [hostFlagGet, hother other ho]
  · intro h
    obtain ⟨hget, hset⟩ := flagByName_of_not_mem s.flags name v h
    simp [hostFlagGet, hostFlagSet, hget, hset]

/-! ## Reset -/

/-- Settles O43, field by field. -/
theorem invariantHoldsAtReset : Obligations.InvariantHoldsAtReset where
  memWf := Memory.reset_wf
  slotZero := by simp [State.reset]
  countersEqual := rfl

/-- Settles O44, by the reset values of the registers, the memory and the record. -/
theorem resetState : Obligations.ResetState :=
  ⟨State.reset_readReg, Memory.read_reset, rfl, rfl, rfl, rfl, rfl, rfl, fun _ _ => rfl⟩

/-! ## The register file as the host sees it -/

theorem hostRegRead_ok (i : Nat) (s : State) (h : i < 32) :
    hostRegRead i s = .ok (s.readReg (BitVec.ofNat 5 i)) :=
  if_pos h

theorem hostRegWrite_ok (i : Nat) (v : Word) (s : State) (h : i < 32) :
    hostRegWrite i v s = .ok (s.writeReg (BitVec.ofNat 5 i) v) :=
  if_pos h

/-- Indices below 32 name registers one to one (R20). -/
theorem ofNat_regIdx_inj (i k : Nat) (hi : i < 32) (hk : k < 32) :
    (BitVec.ofNat 5 i : RegIdx) = BitVec.ofNat 5 k ↔ i = k := by
  rw [← BitVec.toNat_inj, BitVec.toNat_ofNat, BitVec.toNat_ofNat, Nat.mod_eq_of_lt hi,
    Nat.mod_eq_of_lt hk]

/-- Settles O49: the two rules of register 0, for instructions and behind the host's index 0. -/
theorem registerZeroIsHardwired : Obligations.RegisterZeroIsHardwired :=
  fun s v => ⟨s.readReg_zero, s.writeReg_zero v, hostRegRead_ok 0 s (by decide),
    hostRegWrite_ok 0 v s (by decide), fun _ t _ => t.readReg_zero⟩

/-- Settles O50: the host's index is a register index, and a register write has its two rules. -/
theorem hostRegisterAccess : Obligations.HostRegisterAccess := by
  intro i v s
  constructor
  · intro hi
    refine ⟨_, hostRegWrite_ok i v s hi, ?_, ?_, by simp [SameMemBut], by simp [SameControl],
      by simp, by simp⟩
    · rw [hostRegRead_ok i _ hi, State.readReg_writeReg_self]
      simp only [ofNat_regIdx_inj i 0 hi (by decide)]
      rfl
    · intro k hk hne
      have hidx : (BitVec.ofNat 5 k : RegIdx) ≠ BitVec.ofNat 5 i :=
        fun e => hne ((ofNat_regIdx_inj k i hk hi).mp e)
      rw [hostRegRead_ok k _ hk, hostRegRead_ok k s hk, State.readReg_writeReg_other _ _ _ _ hidx]
  · intro hi
    exact ⟨if_neg (Nat.not_lt.mpr hi), if_neg (Nat.not_lt.mpr hi)⟩

end Machine
end Sys2Proof
end

section
/-! PROOFS. Memory (spec/20_memory.md): the canonical form as the one listing of its words, what an
instruction and a step can store, and the word at an address over a step, over a run and behind the
host's read and write. -/

namespace Sys2Proof.Machine

/-! ## One write -/

/-- Settles O51, by what every address reads after a write. -/
theorem memWriteSetsOneWord : Obligations.MemWriteSetsOneWord := fun s a b v =>
  ⟨s.mem.read_write_same a v, s.mem.read_write_other a b v, fun r _ => s.writeMem_readReg a v r,
    ⟨s.writeMem_mode a v, s.writeMem_ir a v, s.writeMem_cycleCount a v,
      s.writeMem_instructionCount a v⟩, s.writeMem_pc a v, s.writeMem_flags a v⟩

/-! ## The canonical form lists its words in one way -/

theorem lookupCell_head (k : Nat) (v : Word) (rest : List (Nat × Word)) :
    lookupCell ((k, v) :: rest) k = v :=
  if_pos rfl

theorem lookupCell_tail {k a : Nat} (v : Word) (rest : List (Nat × Word)) (h : k ≠ a) :
    lookupCell ((k, v) :: rest) a = lookupCell rest a :=
  if_neg h

/-- Canonical cells stay so under the bound of their first key. -/
theorem cellsWf_from_head {lo k : Nat} {v : Word} {rest : List (Nat × Word)}
    (hw : cellsWf lo ((k, v) :: rest) = true) : cellsWf k ((k, v) :: rest) = true := by
  obtain ⟨-, hk, hv, hrest⟩ := (cellsWf_cons lo k v rest).mp hw
  exact (cellsWf_cons k k v rest).mpr ⟨le_refl k, hk, hv, hrest⟩

/-- Canonical cells that give every address the unlisted word list nothing: their first key would be
read as a word that is not it. -/
theorem cells_eq_nil_of_unlisted {lo : Nat} {cells : List (Nat × Word)}
    (hw : cellsWf lo cells = true)
    (h : ∀ a, a < memorySize → lookupCell cells a = unlistedWord) : cells = [] := by
  cases cells with
  | nil => rfl
  | cons c rest =>
    obtain ⟨k, v⟩ := c
    obtain ⟨-, hk, hv, -⟩ := (cellsWf_cons lo k v rest).mp hw
    exact absurd ((lookupCell_head k v rest).symm.trans (h k hk)) hv

/-- Of two canonical lists with the same words, the second starts no later than the first: an
address below its first key is unlisted in it. -/
theorem head_le_head {lo lo' k k' : Nat} {v v' : Word} {rest rest' : List (Nat × Word)}
    (hw : cellsWf lo ((k, v) :: rest) = true) (hw' : cellsWf lo' ((k', v') :: rest') = true)
    (h : ∀ a, a < memorySize →
      lookupCell ((k, v) :: rest) a = lookupCell ((k', v') :: rest') a) : k' ≤ k := by
  by_contra hlt
  obtain ⟨-, hk, hv, -⟩ := (cellsWf_cons lo k v rest).mp hw
  have hhead := h k hk
  rw [lookupCell_head, lookupCell_below _ k' k (cellsWf_from_head hw') (not_le.mp hlt)] at hhead
  exact hv hhead

/-- Two canonical lists with the same word at every address are the same list: their first cells are
the same cell, and behind it the same words are listed. -/
theorem cells_eq_of_lookupCell_eq (cells cells' : List (Nat × Word)) (lo : Nat)
    (hw : cellsWf lo cells = true) (hw' : cellsWf lo cells' = true)
    (h : ∀ a, a < memorySize → lookupCell cells a = lookupCell cells' a) : cells = cells' := by
  induction cells generalizing cells' lo with
  | nil => exact (cells_eq_nil_of_unlisted hw' fun a ha => (h a ha).symm).symm
  | cons c rest ih =>
    obtain ⟨k, v⟩ := c
    cases cells' with
    | nil => exact cells_eq_nil_of_unlisted hw h
    | cons c' rest' =>
      obtain ⟨k', v'⟩ := c'
      obtain rfl : k = k' :=
        le_antisymm (head_le_head hw' hw fun a ha => (h a ha).symm) (head_le_head hw hw' h)
      obtain ⟨-, hk, -, hrest⟩ := (cellsWf_cons lo k v rest).mp hw
      obtain ⟨-, -, -, hrest'⟩ := (cellsWf_cons lo k v' rest').mp hw'
      obtain rfl : v = v' := by simpa only [lookupCell_head] using h k hk
      congr 1
      refine ih rest' (k + 1) hrest hrest' fun a ha => ?_
      by_cases hka : k = a
      · have hbelow : a < k + 1 := by omega
        rw [lookupCell_below rest (k + 1) a hrest hbelow,
          lookupCell_below rest' (k + 1) a hrest' hbelow]
      · simpa only [lookupCell_tail _ _ hka] using h a ha

/-- Settles O58: a key below the memory's size is the number of an address. -/
theorem canonicalMemoriesAreEqualWhenTheirWordsAre :
    Obligations.CanonicalMemoriesAreEqualWhenTheirWordsAre := by
  intro m m' hw hw' h
  have hcells : m.cells = m'.cells :=
    cells_eq_of_lookupCell_eq m.cells m'.cells 0 hw hw' fun a ha => by
      have ha' : (BitVec.ofNat 16 a).toNat = a := Nat.mod_eq_of_lt ha
      simpa only [Memory.read, ha'] using h (BitVec.ofNat 16 a)
  exact congrArg Memory.mk hcells

/-! ## What an instruction and a step store -/

/-- What an instruction can store: an SW stores a register in one memory word, any other instruction
writes at most one register (writing register 0 is writing none). -/
theorem exec_stores (i : Instr) (s t : State) (h : exec i s = .next t) :
    (∃ ra a, i = .sw ra a ∧ t.regs = s.regs ∧ t.mem = s.mem.write a (s.readReg ra)) ∨
      (∃ d v, t.regs = (s.writeReg d v).regs ∧ t.mem = s.mem) := by
  cases i using Instr.aluCases with
  | halt => obtain rfl := execHalt_next s t h; exact .inr ⟨0#5, 0, rfl, rfl⟩
  | alu op ra rb rc =>
    obtain rfl := exec_aluInstr_next op ra rb rc s t h
    exact .inr ⟨ra, _, rfl, s.writeReg_mem ra _⟩
  | loadh ra imm =>
    obtain rfl := execLoadh_next ra imm s t h
    exact .inr ⟨ra, _, rfl, s.writeReg_mem ra _⟩
  | loadl ra imm =>
    obtain rfl := execLoadl_next ra imm s t h
    exact .inr ⟨ra, _, rfl, s.writeReg_mem ra _⟩
  | lw ra imm =>
    obtain rfl := execLw_next ra imm s t h
    exact .inr ⟨ra, _, rfl, s.writeReg_mem ra _⟩
  | sw ra imm => obtain rfl := execSw_next ra imm s t h; exact .inl ⟨ra, imm, rfl, rfl, rfl⟩
  | jal address =>
    obtain rfl := execJal_next address s t h
    exact .inr ⟨linkReg, linkValue s.npc, rfl, s.writeReg_mem linkReg (linkValue s.npc)⟩
  | jr rc => obtain rfl := execJr_next rc s t h; exact .inr ⟨0#5, 0, rfl, rfl⟩
  | j address => obtain rfl := execJ_next address s t h; exact .inr ⟨0#5, 0, rfl, rfl⟩
  | jeq ra rb offset =>
    obtain rfl := execJeq_next ra rb offset s t h; exact .inr ⟨0#5, 0, rfl, rfl⟩
  | jne ra rb offset =>
    obtain rfl := execJne_next ra rb offset s t h; exact .inr ⟨0#5, 0, rfl, rfl⟩

/-- What a step can store: that of the SW it runs, or at most one register. -/
theorem stepWith_stores (opc : OpcodeMap) (s t : State) (h : stepWith opc s = .next t) :
    (s.mode = .running ∧ ∃ ra a, decodeWith opc s.fetch = some (.sw ra a) ∧ t.regs = s.regs ∧
        t.mem = s.mem.write a (s.readReg ra)) ∨
      (∃ d v, t.regs = (s.writeReg d v).regs ∧ t.mem = s.mem) := by
  obtain ⟨-, rfl⟩ | ⟨-, -, rfl⟩ | ⟨hm, i, u, hd, hu, rfl⟩ := stepWith_cases opc s t h
  · exact .inr ⟨0#5, 0, rfl, rfl⟩
  · exact .inr ⟨0#5, 0, rfl, rfl⟩
  · obtain ⟨ra, a, rfl, hregs, hmem⟩ | hreg := exec_stores i s u hu
    · exact .inl ⟨hm, ra, a, hd, hregs, hmem⟩
    · exact .inr hreg

/-- A step counts in both counters or in none (R30, R125, D6). -/
theorem stepWith_counters (opc : OpcodeMap) (s t : State) (h : stepWith opc s = .next t) :
    ∃ n, t.cycleCount = s.cycleCount + n ∧ t.instructionCount = s.instructionCount + n := by
  obtain ⟨-, rfl⟩ | ⟨-, -, rfl⟩ | ⟨-, i, u, -, hu, rfl⟩ := stepWith_cases opc s t h
  · exact ⟨0, rfl, rfl⟩
  · exact ⟨0, rfl, rfl⟩
  · obtain ⟨-, -, hcycle, hinstr⟩ := exec_control i s u hu
    exact ⟨1, congrArg (· + 1) hcycle, congrArg (· + 1) hinstr⟩

/-- Settles O42: the memory gets one word at most and a write keeps the canonical form, no register
write reaches slot 0, and the counters move together. -/
theorem everyStepKeepsTheInvariant : Obligations.EveryStepKeepsTheInvariant := by
  intro opc s t hinv h
  obtain ⟨hmemWf, hslot, hcount⟩ := hinv
  have hcount' : t.cycleCount = t.instructionCount := by
    obtain ⟨n, hcycle, hinstr⟩ := stepWith_counters opc s t h
    rw [hcycle, hinstr, hcount]
  obtain ⟨-, ra, a, -, hregs, hmem⟩ | ⟨d, v, hregs, hmem⟩ := stepWith_stores opc s t h
  · exact ⟨hmem ▸ Memory.write_wf s.mem a _ hmemWf, by rw [hregs, hslot], hcount'⟩
  · exact ⟨hmem ▸ hmemWf, by rw [hregs, s.writeReg_slotZero d v, hslot], hcount'⟩

/-! ## A word over a step and over a run -/

/-- Settles O46: of the two things a step can store, only an SW's word is in memory, and it reaches
no address but its own. -/
theorem onlySwChangesAMemoryWord : Obligations.OnlySwChangesAMemoryWord := by
  intro opc s t a h hne
  obtain ⟨hm, ra, b, hd, -, hmem⟩ | ⟨-, -, -, hmem⟩ := stepWith_stores opc s t h
  · rw [hmem] at hne ⊢
    obtain rfl : a = b := by
      by_contra hab
      exact hne (s.mem.read_write_other b a _ hab)
    exact ⟨hm, ra, hd, s.mem.read_write_same a _⟩
  · exact absurd (congrArg (·.read a) hmem) hne

/-- Every state has a next state (R127). -/
theorem stepWith_total (opc : OpcodeMap) (s : State) : ∃ t, stepWith opc s = .next t := by
  by_cases hm : s.mode = .running
  · cases hd : decodeWith opc s.fetch with
    | none => exact ⟨_, stepWith_faults opc s hm hd⟩
    | some i =>
      obtain ⟨u, hu⟩ := exec_total i s
      exact ⟨_, stepWith_runs opc s u i hm hd hu⟩
  · exact ⟨s, stepWith_stuck opc s hm⟩

/-- The host's step leaves a word that the step's instruction does not store to (R56). -/
theorem hostStep_read_of_not_sw (opc : OpcodeMap) (s : State) (a : Addr)
    (h : ∀ ra, s.mode = .running → decodeWith opc s.fetch ≠ some (.sw ra a)) :
    (hostStep opc s).1.mem.read a = s.mem.read a := by
  obtain ⟨t, ht⟩ := stepWith_total opc s
  rw [hostStep_eq opc s t ht]
  by_contra hne
  obtain ⟨hm, ra, hd, -⟩ := onlySwChangesAMemoryWord opc s t a ht hne
  exact h ra hm hd

/-- Settles O47, by induction on the length of the run: its first step stores nothing to the
address, and the states behind that step are states of the whole run. -/
theorem aWordStaysUntilItIsStoredTo : Obligations.AWordStaysUntilItIsStoredTo := by
  intro opc a n
  induction n with
  | zero => exact fun _ _ => rfl
  | succ n ih =>
    intro s h
    by_cases hm : s.mode = .running
    · have hfirst := hostStep_read_of_not_sw opc s a (h 0 n.succ_pos)
      by_cases herr : (hostStep opc s).2 = none
      · have hturn (k : Nat) : hostRun opc (k + 1) s = hostRun opc k (hostStep opc s).1 := by
          rw [hostRun_running opc k s hm, if_pos herr]
        rw [hturn n, ih _ fun k hk => hturn k ▸ h (k + 1) (Nat.succ_lt_succ hk), hfirst]
      · rw [hostRun_running opc n s hm, if_neg herr, hfirst]
    · rw [hostRun_stuck opc _ s hm]

/-- Settles O48: the SW has a next state, whose memory is the written one and whose pc is npc, and
retiring it sets ir to the word fetched before the write. -/
theorem aStoreIsSeenByTheNextFetch : Obligations.AStoreIsSeenByTheNextFetch := by
  intro opc s ra a hm hd
  have hsw : exec (.sw ra a) s = .next ((s.writeMem a (s.readReg ra)).setPc s.npc) := rfl
  have hword : (s.mem.write a (s.readReg ra)).read a = s.readReg ra := s.mem.read_write_same a _
  refine ⟨_, stepWith_runs opc s _ _ hm hd hsw, rfl, hm, hword, ?_, fun _ => rfl⟩
  rintro rfl
  exact hword

/-! ## The memory as the host sees it -/

theorem hostMemRead_ok (a : Nat) (s : State) (h : a < 65536) :
    hostMemRead a s = .ok (s.mem.read (BitVec.ofNat 16 a)) :=
  if_pos h

theorem hostMemRead_error (a : Nat) (s : State) (h : 65536 ≤ a) :
    hostMemRead a s = .error .rangeViolation :=
  if_neg (Nat.not_lt.mpr h)

theorem hostMemWrite_ok (a : Nat) (v : Word) (s : State) (h : a < 65536) :
    hostMemWrite a v s = .ok (s.writeMem (BitVec.ofNat 16 a) v) :=
  if_pos h

theorem hostMemWrite_error (a : Nat) (v : Word) (s : State) (h : 65536 ≤ a) :
    hostMemWrite a v s = .error .rangeViolation :=
  if_neg (Nat.not_lt.mpr h)

/-- Numbers below 65536 name addresses one to one (R50). -/
theorem ofNat_addr_inj (a b : Nat) (ha : a < 65536) (hb : b < 65536) :
    (BitVec.ofNat 16 a : Addr) = BitVec.ofNat 16 b ↔ a = b := by
  rw [← BitVec.toNat_inj, BitVec.toNat_ofNat, BitVec.toNat_ofNat, Nat.mod_eq_of_lt ha,
    Nat.mod_eq_of_lt hb]

/-- The host's write to one address leaves what the host reads at every other number, in range or
not. -/
theorem hostMemRead_writeMem_other (a b : Nat) (v : Word) (s : State) (ha : a < 65536)
    (hne : b ≠ a) : hostMemRead b (s.writeMem (BitVec.ofNat 16 a) v) = hostMemRead b s := by
  by_cases hb : b < 65536
  · have haddr : (BitVec.ofNat 16 b : Addr) ≠ BitVec.ofNat 16 a :=
      fun e => hne ((ofNat_addr_inj b a hb ha).mp e)
    rw [hostMemRead_ok b _ hb, hostMemRead_ok b s hb, State.writeMem_mem,
      s.mem.read_write_other _ _ v haddr]
  · rw [hostMemRead_error b _ (not_lt.mp hb), hostMemRead_error b s (not_lt.mp hb)]

/-- Settles O52: in range the host's write is MemWrite, with its frame; out of range both operations
answer the error. -/
theorem hostMemoryAccess : Obligations.HostMemoryAccess := by
  intro a v s
  constructor
  · intro ha
    obtain ⟨hread, -, hframe⟩ :=
      memWriteSetsOneWord s (BitVec.ofNat 16 a) (BitVec.ofNat 16 a) v
    exact ⟨_, hostMemWrite_ok a v s ha, by rw [hostMemRead_ok a _ ha, hread],
      fun b hne => hostMemRead_writeMem_other a b v s ha hne, hframe⟩
  · exact fun ha => ⟨hostMemRead_error a s ha, hostMemWrite_error a v s ha⟩

end Sys2Proof.Machine
end

section
/-! PROOFS. Decoding and encoding (spec/30_encoding.md): the round trip both ways, what the decoder
makes of the sentinel, of unused bits and of unassigned opcode bytes, and the value of a branch offset;
last the constant that two half-word loads make (R95). -/

namespace Sys2Proof

open Machine

/-! ## From an instruction to its word and back (R81, R86) -/

/-- The per-constructor laws of the opcode byte as one. -/
theorem opcodeField_encodeWith : ∀ i, Laws.OpcodeByte.Statement i
  | .halt => Laws.OpcodeByte.halt
  | .add ra rb rc => Laws.OpcodeByte.add ra rb rc
  | .sub ra rb rc => Laws.OpcodeByte.sub ra rb rc
  | .zero ra rb rc => Laws.OpcodeByte.zero ra rb rc
  | .xor ra rb rc => Laws.OpcodeByte.xor ra rb rc
  | .or ra rb rc => Laws.OpcodeByte.or ra rb rc
  | .and ra rb rc => Laws.OpcodeByte.and ra rb rc
  | .not ra rb rc => Laws.OpcodeByte.not ra rb rc
  | .copy ra rb rc => Laws.OpcodeByte.copy ra rb rc
  | .sal ra rb rc => Laws.OpcodeByte.sal ra rb rc
  | .sll ra rb rc => Laws.OpcodeByte.sll ra rb rc
  | .sar ra rb rc => Laws.OpcodeByte.sar ra rb rc
  | .slr ra rb rc => Laws.OpcodeByte.slr ra rb rc
  | .loadh ra imm => Laws.OpcodeByte.loadh ra imm
  | .loadl ra imm => Laws.OpcodeByte.loadl ra imm
  | .lw ra imm => Laws.OpcodeByte.lw ra imm
  | .sw ra imm => Laws.OpcodeByte.sw ra imm
  | .jal address => Laws.OpcodeByte.jal address
  | .jr rc => Laws.OpcodeByte.jr rc
  | .j address => Laws.OpcodeByte.j address
  | .jeq ra rb offset => Laws.OpcodeByte.jeq ra rb offset
  | .jne ra rb offset => Laws.OpcodeByte.jne ra rb offset

/-- The per-constructor laws of the fields as one. -/
theorem fieldsOf_encodeWith : ∀ i, Laws.FieldsReadBack.Statement i
  | .halt => Laws.FieldsReadBack.halt
  | .add ra rb rc => Laws.FieldsReadBack.add ra rb rc
  | .sub ra rb rc => Laws.FieldsReadBack.sub ra rb rc
  | .zero ra rb rc => Laws.FieldsReadBack.zero ra rb rc
  | .xor ra rb rc => Laws.FieldsReadBack.xor ra rb rc
  | .or ra rb rc => Laws.FieldsReadBack.or ra rb rc
  | .and ra rb rc => Laws.FieldsReadBack.and ra rb rc
  | .not ra rb rc => Laws.FieldsReadBack.not ra rb rc
  | .copy ra rb rc => Laws.FieldsReadBack.copy ra rb rc
  | .sal ra rb rc => Laws.FieldsReadBack.sal ra rb rc
  | .sll ra rb rc => Laws.FieldsReadBack.sll ra rb rc
  | .sar ra rb rc => Laws.FieldsReadBack.sar ra rb rc
  | .slr ra rb rc => Laws.FieldsReadBack.slr ra rb rc
  | .loadh ra imm => Laws.FieldsReadBack.loadh ra imm
  | .loadl ra imm => Laws.FieldsReadBack.loadl ra imm
  | .lw ra imm => Laws.FieldsReadBack.lw ra imm
  | .sw ra imm => Laws.FieldsReadBack.sw ra imm
  | .jal address => Laws.FieldsReadBack.jal address
  | .jr rc => Laws.FieldsReadBack.jr rc
  | .j address => Laws.FieldsReadBack.j address
  | .jeq ra rb offset => Laws.FieldsReadBack.jeq ra rb offset
  | .jne ra rb offset => Laws.FieldsReadBack.jne ra rb offset

/-- HALT alone has no opcode (R81). -/
theorem Instr.opcode_eq_none_iff (i : Instr) : i.opcode = none ↔ i = .halt := by
  cases i with
  | halt => exact iff_of_true rfl rfl
  | _ => exact iff_of_false nofun nofun

/-- Settles O2: the word of a mnemonic goes to the opcode lookup, which finds the mnemonic by its own
number, and the fields stand where they were put. -/
theorem roundTripUnderEveryNumbering : Obligations.RoundTripUnderEveryNumbering := by
  intro opc hopc i hwf hword
  cases hm : i.opcode with
  | none =>
    obtain rfl := i.opcode_eq_none_iff.mp hm
    exact decodeWith_haltWord opc
  | some m =>
    have hne : encodeWith opc i ≠ haltWord := by
      refine hword.resolve_left ?_
      rintro rfl
      cases hm
    rw [decodeWith_other opc _ hne, opcodeField_encodeWith i opc m hm, lookupOpcode_self opc hopc m]
    exact congrArg some (fieldsOf_encodeWith i hwf opc m hm)

/-- No default number is 0xFF, so that the sentinel encodes HALT alone (R88, R90). -/
theorem encode_ne_haltWord (i : Instr) (h : i ≠ .halt) : encode i ≠ haltWord := by
  intro hword
  cases hm : i.opcode with
  | none => exact h (i.opcode_eq_none_iff.mp hm)
  | some m =>
    have hbyte : opcodeField haltWord = defaultOpc m :=
      hword ▸ opcodeField_encodeWith i defaultOpc m hm
    cases m <;> exact absurd hbyte (by decide)

/-- Settles O1, as the default numbering is injective and has no branch with the sentinel's word. -/
theorem decodeOfEncodeIsTheInstruction : Obligations.DecodeOfEncodeIsTheInstruction := by
  intro i hwf
  refine roundTripUnderEveryNumbering defaultOpc defaultOpc_wellFormed i hwf ?_
  by_cases hi : i = .halt
  · exact .inl hi
  · exact .inr (encode_ne_haltWord i hi)

theorem decode_of_encode_eq (i : Instr) (w : Word) (hwf : i.wf = true) (hw : encode i = w) :
    decode w = some i :=
  hw ▸ decodeOfEncodeIsTheInstruction i hwf

/-- Settles O8: each of the words is the canonical encoding of its instruction. -/
theorem writtenOutWordsDecode : Obligations.WrittenOutWordsDecode :=
  ⟨decode_of_encode_eq _ _ rfl rfl, decode_of_encode_eq _ _ rfl rfl,
    decode_of_encode_eq _ _ rfl rfl, decode_of_encode_eq _ _ rfl rfl,
    decode_of_encode_eq _ _ rfl rfl, decode_of_encode_eq _ _ rfl rfl,
    decode_of_encode_eq _ _ rfl rfl, decode_of_encode_eq _ _ rfl rfl⟩

/-! ## From a word to its instruction and back (R82, R86) -/

theorem fieldsOf_format (m : Opcode) (w : Word) : (fieldsOf m w).format = m.format := by
  rw [Instr.format, fieldsOf_opcode]

theorem fieldsOf_wf (m : Opcode) (w : Word) : (fieldsOf m w).wf = true := by
  cases m with
  | jeq | jne => exact offsetField_inRange w
  | _ => rfl

/-- The fields of a word, encoded again with the word's own top byte, are the word's used bits. -/
theorem encodeWith_fieldsOf (opc : OpcodeMap) (m : Opcode) (w : Word)
    (h : opc m = opcodeField w) : encodeWith opc (fieldsOf m w) = w &&& m.format.usedBits := by
  cases m with
  | add | sub | zero | xor | or | and | not | copy | sal | sll | sar | slr =>
    rw [fieldsOf, encodeWith, h]
    exact packR_fields w
  | loadh | loadl | lw | sw =>
    rw [fieldsOf, encodeWith, h]
    exact packI_fields w
  | jal | j =>
    rw [fieldsOf, encodeWith, h]
    exact packJ_fields w
  | jr =>
    rw [fieldsOf, encodeWith, h]
    exact packJR_fields w
  | jeq | jne =>
    rw [fieldsOf, encodeWith, h]
    exact packB_fields w

/-- Settles O3, by the two things the decoder can answer. -/
theorem decodedWordReencodesToItsUsedBits : Obligations.DecodedWordReencodesToItsUsedBits := by
  intro opc w i hd
  obtain ⟨rfl, rfl⟩ | ⟨-, m, hm, rfl⟩ := decodeWith_cases opc w i hd
  · exact ⟨rfl, rfl⟩
  · exact ⟨fieldsOf_wf m w, fieldsOf_format m w ▸ encodeWith_fieldsOf opc m w hm⟩

/-! ## Unused bits (R82) -/

/-- Every format uses the opcode byte. -/
theorem opcodeField_and_usedBits (f : Format) (w : Word) :
    opcodeField (w &&& f.usedBits) = opcodeField w := by
  cases f with
  | r => rw [← packR_fields, packR_opcodeField]
  | i => rw [← packI_fields, packI_opcodeField]
  | j => rw [← packJ_fields, packJ_opcodeField]
  | jr => rw [← packJR_fields, packJR_opcodeField]
  | b => rw [← packB_fields, packB_opcodeField]
  | halt => exact congrArg opcodeField BitVec.and_allOnes

/-- No field of an instruction is read from an unused bit. -/
theorem fieldsOf_and_usedBits (m : Opcode) (w : Word) :
    fieldsOf m (w &&& m.format.usedBits) = fieldsOf m w := by
  cases m with
  | add | sub | zero | xor | or | and | not | copy | sal | sll | sar | slr =>
    rw [Opcode.format, ← packR_fields]
    simp [fieldsOf]
  | loadh | loadl | lw | sw =>
    rw [Opcode.format, ← packI_fields]
    simp [fieldsOf]
  | jal | j =>
    rw [Opcode.format, ← packJ_fields]
    simp [fieldsOf]
  | jr =>
    rw [Opcode.format, ← packJR_fields]
    simp [fieldsOf]
  | jeq | jne =>
    rw [Opcode.format, ← packB_fields]
    simp [fieldsOf, offsetField_inRange]

/-- Settles O4: both words have the same used bits, and with them the same opcode byte and the same
fields. -/
theorem decodeIgnoresUnusedBits : Obligations.DecodeIgnoresUnusedBits := by
  intro opc w w' i hw hw' hd hused
  rw [decodeWith_other opc w hw] at hd
  obtain ⟨m, hlookup, rfl⟩ := Option.map_eq_some_iff.mp hd
  rw [fieldsOf_format] at hused
  have hbyte : opcodeField w' = opcodeField w := by
    rw [← opcodeField_and_usedBits m.format w', hused, opcodeField_and_usedBits]
  have hfields : fieldsOf m w' = fieldsOf m w := by
    rw [← fieldsOf_and_usedBits m w', hused, fieldsOf_and_usedBits]
  rw [decodeWith_other opc w' hw', hbyte, hlookup, Option.map_some, hfields]

/-! ## The sentinel and the rejected words (R89, R91) -/

/-- Settles O5, by the decoder's two branches. -/
theorem onlyTheSentinelIsHalt : Obligations.OnlyTheSentinelIsHalt := fun opc w =>
  ⟨decodeWith_eq_halt_iff opc w, congrArg (Option.map (Instr.record opc)) (decodeWith_haltWord opc),
    decodeWith_other opc w⟩

/-- What the decoder rejects, under any numbering: a word that is not the sentinel and has the number
of no mnemonic (R91). -/
theorem decodeWith_eq_none_iff (opc : OpcodeMap) (w : Word) :
    decodeWith opc w = none ↔ w ≠ haltWord ∧ ∀ m, opc m ≠ opcodeField w := by
  by_cases hw : w = haltWord
  · simp [hw, decodeWith_haltWord]
  · simp [decodeWith_other opc w hw, lookupOpcode_none, hw]

theorem opcodeField_toNat (w : Word) : (opcodeField w).toNat = w.toNat / 2 ^ 24 := by
  rw [opcodeField, BitVec.extractLsb'_toNat, Nat.shiftRight_eq_div_pow]
  omega

/-- The default numbers are 1 to 21, in the order of R88. -/
theorem map_defaultOpc : (allOpcodes.map defaultOpc).map BitVec.toNat = List.range' 1 21 := rfl

/-- The bytes that the default numbering assigns. -/
theorem exists_defaultOpc_eq_iff (b : OpByte) :
    (∃ m, defaultOpc m = b) ↔ 1 ≤ b.toNat ∧ b.toNat < 0x16 := by
  have hmem : b.toNat ∈ List.range' 1 21 ↔ ∃ m, defaultOpc m = b := by
    rw [← map_defaultOpc]
    simp [BitVec.toNat_inj, mem_allOpcodes]
  rw [← hmem, List.mem_range'_1]

/-- Settles O7: the rejected words are those whose top byte is not one of the default numbers. -/
theorem defaultNumberingRejectsTheOtherBytes :
    Obligations.DefaultNumberingRejectsTheOtherBytes := by
  intro w
  have hbyte : (∀ m, defaultOpc m ≠ opcodeField w) ↔
      w.toNat / 2 ^ 24 = 0 ∨ 0x16 ≤ w.toNat / 2 ^ 24 := by
    rw [← not_exists, exists_defaultOpc_eq_iff, opcodeField_toNat]
    omega
  rw [← hbyte]
  exact decodeWith_eq_none_iff defaultOpc w

/-! ## The branch offset (R85) -/

/-- The two's-complement value of the low 14 bits, the sign taken from bit 13. -/
theorem offsetField_toInt (w : Word) :
    (offsetField w).toInt = if w.getLsbD 13 then ((w.toNat % 2 ^ 14 : Nat) : Int) - 2 ^ 14
      else ((w.toNat % 2 ^ 14 : Nat) : Int) := by
  have hsign : (w.extractLsb' 0 14).msb = w.getLsbD 13 := by
    simp [BitVec.msb_eq_getLsbD_last]
  have hlow : (w.extractLsb' 0 14).toNat = w.toNat % 2 ^ 14 := BitVec.extractLsb'_toNat ..
  rw [offsetField, BitVec.toInt_signExtend_of_le (by decide), BitVec.toInt_eq_msb_cond, hsign, hlow]
  rfl

/-- A decoded instruction with an opcode has the fields of its word. -/
theorem eq_fieldsOf_of_decodeWith (opc : OpcodeMap) (w : Word) (i : Instr) (m : Opcode)
    (hd : decodeWith opc w = some i) (hm : i.opcode = some m) : i = fieldsOf m w := by
  obtain ⟨-, rfl⟩ | ⟨-, n, -, rfl⟩ := decodeWith_cases opc w i hd
  · cases hm
  · rw [fieldsOf_opcode] at hm
    cases hm
    rfl

theorem decodedOffset_eq_offsetField (opc : OpcodeMap) (w : Word) (ra rb : RegIdx) (offset : Word)
    (hd : decodeWith opc w = some (.jeq ra rb offset) ∨
      decodeWith opc w = some (.jne ra rb offset)) : offset = offsetField w := by
  obtain hd | hd := hd
  · injection eq_fieldsOf_of_decodeWith opc w _ _ hd rfl
  · injection eq_fieldsOf_of_decodeWith opc w _ _ hd rfl

/-- A JEQ of a register with itself is taken (R190, R191). -/
theorem execJeq_self (ra : RegIdx) (offset : Word) (s : State) :
    exec (.jeq ra ra offset) s = .next (s.setPc (branchTarget s.npc offset)) := by
  rw [exec, execJeq, branchIf_eq, beq_self_eq_true, if_pos rfl]

/-- Settles O9: a decoded offset is the offset field of its word. -/
theorem branchOffsetIsSignExtendedInDecode : Obligations.BranchOffsetIsSignExtendedInDecode := by
  intro opc w ra rb offset hd
  obtain rfl := decodedOffset_eq_offsetField opc w ra rb offset hd
  have hrange := offsetField_inRange w
  simp only [offsetInRange, Bool.and_eq_true, decide_eq_true_eq] at hrange
  obtain ⟨hlow, hhigh⟩ := hrange
  exact ⟨offsetField_toInt w, hlow, hhigh, fun s =>
    ⟨_, execJeq_self ra (offsetField w) s, branchTarget_toInt s.npc (offsetField w)⟩⟩

/-! ## A constant in two halves (R95) -/

namespace Machine

/-- The lower half of `k` over a word whose upper half is that of `k`. -/
theorem packLow_packHigh (k old : Word) :
    packLow (k.extractLsb' 0 16) (packHigh (k.extractLsb' 16 16) old) = k := by
  apply BitVec.eq_of_toNat_eq
  rw [packLow_toNat, packHigh_toNat, BitVec.extractLsb'_toNat, BitVec.extractLsb'_toNat,
    Nat.shiftRight_eq_div_pow]
  omega

/-- The upper half of `k` over a word whose lower half is that of `k`. -/
theorem packHigh_packLow (k old : Word) :
    packHigh (k.extractLsb' 16 16) (packLow (k.extractLsb' 0 16) old) = k := by
  apply BitVec.eq_of_toNat_eq
  rw [packHigh_toNat, packLow_toNat, BitVec.extractLsb'_toNat, BitVec.extractLsb'_toNat,
    Nat.shiftRight_eq_div_pow]
  omega

/-- Settles O22: the second load reads what the first one left, and replaces its other half. -/
theorem twoHalfLoadsMakeAConstant : Obligations.TwoHalfLoadsMakeAConstant := by
  intro ra k s hra
  refine ⟨⟨_, _, rfl, rfl, ?_⟩, ⟨_, _, rfl, rfl, ?_⟩⟩
  · rw [State.setPc_readReg, State.readReg_writeReg_same _ ra _ hra, State.setPc_readReg,
      State.readReg_writeReg_same _ ra _ hra, packLow_packHigh]
  · rw [State.setPc_readReg, State.readReg_writeReg_same _ ra _ hra, State.setPc_readReg,
      State.readReg_writeReg_same _ ra _ hra, packHigh_packLow]

end Machine
end Sys2Proof
end

section
/-! PROOFS. The step and its control (spec/40_step_and_control.md): what one step does in each mode, the
record the decoder hands on, the rows of the control unit, and what the control signals tell of an
instruction's effects. -/

namespace Sys2Proof.Machine

/-! ## The step (R120, R125, R127) -/

theorem mode_ne_running_of_stopped (s : State) (h : s.mode = .halted ∨ s.mode = .fault) :
    s.mode ≠ .running := by
  obtain h | h := h
  · rw [h]; nofun
  · rw [h]; nofun

/-- Settles O38, by what the step, its error and a run are outside mode running. -/
theorem nothingHappensOutsideRunning : Obligations.NothingHappensOutsideRunning := by
  intro opc s hstopped
  have hm := mode_ne_running_of_stopped s hstopped
  have hstep := stepWith_stuck opc s hm
  exact ⟨hstep, by rw [hostStep_eq opc s s hstep, stepError_stuck opc s hm],
    fun n => hostRun_stuck opc n s hm⟩

/-- Settles O39, as every instruction has a next state and a rejected word takes the fault. -/
theorem everyStateHasANextState : Obligations.EveryStateHasANextState :=
  stepWith_total

/-- Settles O35: a decoded instruction is well formed and has a next state, which the step retires. -/
theorem stepRunsTheDecodedInstruction : Obligations.StepRunsTheDecodedInstruction := by
  intro s i hm hd
  obtain ⟨hwf, -⟩ := decodedWordReencodesToItsUsedBits defaultOpc s.fetch i hd
  obtain ⟨t, ht⟩ := exec_total i s
  exact ⟨hwf, t, ht, stepWith_runs defaultOpc s t i hm hd ht⟩

/-! ## The decoder's record (R111, R112) -/

/-- The record of a word that carries the number of `m` is that of `m`'s fields (R90). -/
theorem decodeRecordWith_of_number (opc : OpcodeMap) (hopc : opcWellFormed opc = true) (w : Word)
    (m : Opcode) (hw : w ≠ haltWord) (hm : opc m = opcodeField w) :
    decodeRecordWith opc w = some ((fieldsOf m w).record opc) := by
  rw [decodeRecordWith, decodeWith_other opc w hw, ← hm, lookupOpcode_self opc hopc m,
    Option.map_some, Option.map_some]

/-- Settles O6, by the three ways of the decoder: the sentinel, a byte that is no number, and the
number of a mnemonic, whose fields stand where its format has them. -/
theorem decoderFollowsTheAlgorithm : Obligations.DecoderFollowsTheAlgorithm := by
  intro opc hopc w
  refine ⟨?_, fun hw hbyte => ?_, fun hw m hm => ?_⟩
  · rintro rfl
    exact congrArg (Option.map (Instr.record opc)) (decodeWith_haltWord opc)
  · have hreject : decodeWith opc w = none := (decodeWith_eq_none_iff opc w).mpr ⟨hw, hbyte⟩
    rw [decodeRecordWith, hreject, Option.map_none]
  · rw [decodeRecordWith_of_number opc hopc w m hw hm]
    cases m <;> rfl

/-! ## The control unit (R115, R116) -/

theorem record_opByte (opc : OpcodeMap) (i : Instr) :
    (i.record opc).opByte = i.opcode.map opc := by
  cases i <;> rfl

theorem record_format (opc : OpcodeMap) (i : Instr) : (i.record opc).format = i.format := by
  cases i <;> rfl

/-- The control unit on a record whose byte is looked up as a mnemonic of the record's format. -/
theorem controlUnit_of_lookup (opc : OpcodeMap) (d : Decoded) (b : OpByte) (m : Opcode)
    (hb : d.opByte = some b) (hm : lookupOpcode opc b = some m) (hf : m.format = d.format) :
    controlUnit opc d = .ok (opcodeSignals m) := by
  simp [controlUnit, hb, hm, hf]

/-- The control unit on a record whose byte is no mnemonic's number (R116). -/
theorem controlUnit_of_lookup_none (opc : OpcodeMap) (d : Decoded) (b : OpByte)
    (hb : d.opByte = some b) (hm : lookupOpcode opc b = none) :
    controlUnit opc d = .error (.controlOpcodeNotRecognized d) := by
  simp [controlUnit, hb, hm]

theorem signalsOf_fieldsOf (m : Opcode) (w : Word) :
    signalsOf (fieldsOf m w) = opcodeSignals m := by
  simp [signalsOf]

/-- Settles O34: the record of a decoded word carries the byte that the decoder's own lookup found,
and the format of the mnemonic found. -/
theorem controlUnitAcceptsEveryDecodedWord : Obligations.ControlUnitAcceptsEveryDecodedWord := by
  refine fun opc => ⟨fun w i hd => ?_, fun d b hb hnone =>
    controlUnit_of_lookup_none opc d b hb ((lookupOpcode_none opc b).mpr hnone)⟩
  by_cases hw : w = haltWord
  · rw [hw, decodeWith_haltWord] at hd
    cases hd
    rfl
  · rw [decodeWith_other opc w hw] at hd
    obtain ⟨m, hlookup, rfl⟩ := Option.map_eq_some_iff.mp hd
    have hbyte : ((fieldsOf m w).record opc).opByte = some (opcodeField w) := by
      rw [record_opByte, fieldsOf_opcode, Option.map_some, lookupOpcode_sound opc _ m hlookup]
    have hformat : m.format = ((fieldsOf m w).record opc).format := by
      rw [record_format, fieldsOf_format]
    rw [signalsOf_fieldsOf]
    exact controlUnit_of_lookup opc _ _ m hbyte hlookup hformat

/-- The row "ALU ops" is that of every opcode with an ALU operation, for that operation (R115). -/
theorem opcodeSignals_of_aluOpOf (m : Opcode) (op : AluOp) (h : aluOpOf m = some op) :
    opcodeSignals m = aluSignals op := by
  cases m with
  | loadh | loadl | lw | sw | jal | jr | j | jeq | jne => cases h
  | _ => cases h; rfl

/-- Settles O33: the ALU rows are one, and each other row is read off the table. -/
theorem signalTableRows : Obligations.SignalTableRows := by
  refine ⟨opcodeSignals_of_aluOpOf, fun m hm => ?_, rfl, rfl, rfl, fun m hm => ?_, fun m hm => ?_,
    rfl⟩
  · obtain rfl | rfl : m = .loadh ∨ m = .loadl := by simpa using hm
    · rfl
    · rfl
  · obtain rfl | rfl : m = .jr ∨ m = .j := by simpa using hm
    · rfl
    · rfl
  · obtain rfl | rfl : m = .jeq ∨ m = .jne := by simpa using hm
    · rfl
    · rfl

/-! ## What the signals tell (R117, R118) -/

@[simp] theorem signalsOf_aluInstr (op : AluOp) (ra rb rc : RegIdx) :
    signalsOf (aluInstr op ra rb rc) = aluSignals op := by
  cases op <;> rfl

/-- `reg_write` is on exactly for the instructions with a destination register (R124). -/
theorem signalsOf_regWrite (i : Instr) : (signalsOf i).regWrite = (destReg i).isSome := by
  cases i <;> rfl

/-- `halt` is on exactly for HALT (R114, D9). -/
theorem signalsOf_halt (i : Instr) : (signalsOf i).halt = true ↔ i = .halt := by
  cases i with
  | halt => exact iff_of_true rfl rfl
  | _ => exact iff_of_false nofun nofun

/-- `pc_src` is `halt` exactly for HALT (R115). -/
theorem signalsOf_pcSrc_halt (i : Instr) : (signalsOf i).pcSrc = .halt ↔ i = .halt := by
  cases i with
  | halt => exact iff_of_true rfl rfl
  | _ => exact iff_of_false nofun nofun

/-- No register changes unless `reg_write` is on. -/
theorem exec_regs_of_regWrite_false (i : Instr) (s t : State) (h : exec i s = .next t)
    (hsig : (signalsOf i).regWrite = false) : SameRegsBut [] s t := by
  intro r _
  rw [signalsOf_regWrite, Option.isSome_eq_false_iff, Option.isNone_iff_eq_none] at hsig
  exact onlyTheDestinationRegisterChanges i s t r h (by rw [hsig]; nofun)

/-- No memory word changes unless `mem_write` is on. -/
theorem exec_mem_of_memWrite_false (i : Instr) (s t : State) (h : exec i s = .next t)
    (hsig : (signalsOf i).memWrite = false) : SameMemBut [] s t := by
  intro a _
  obtain ⟨ra, b, rfl, -, -⟩ | ⟨-, -, -, hmem⟩ := exec_stores i s t h
  · cases hsig
  · rw [hmem]

/-- No flag changes unless `alu_op` is set (R153). -/
theorem exec_flags_of_aluOp_none (i : Instr) (s t : State) (h : exec i s = .next t)
    (hsig : (signalsOf i).aluOp = none) : t.flags = s.flags := by
  cases i using Instr.aluCases with
  | halt => obtain rfl := execHalt_next s t h; rfl
  | alu op ra rb rc => rw [signalsOf_aluInstr] at hsig; cases hsig
  | loadh ra imm => obtain rfl := execLoadh_next ra imm s t h; simp
  | loadl ra imm => obtain rfl := execLoadl_next ra imm s t h; simp
  | lw ra imm => obtain rfl := execLw_next ra imm s t h; simp
  | sw ra imm => obtain rfl := execSw_next ra imm s t h; rfl
  | jal address => obtain rfl := execJal_next address s t h; simp
  | jr rc => obtain rfl := execJr_next rc s t h; rfl
  | j address => obtain rfl := execJ_next address s t h; rfl
  | jeq ra rb offset => obtain rfl := execJeq_next ra rb offset s t h; rfl
  | jne ra rb offset => obtain rfl := execJne_next ra rb offset s t h; rfl

/-- With `pc_src` `inc`, pc becomes npc (R117). -/
theorem exec_pc_of_inc (i : Instr) (s t : State) (h : exec i s = .next t)
    (hsig : (signalsOf i).pcSrc = .inc) : t.pc = s.npc := by
  cases i using Instr.aluCases with
  | alu op ra rb rc => rw [exec_aluInstr_next op ra rb rc s t h, State.setPc_pc]
  | loadh ra imm => rw [execLoadh_next ra imm s t h, State.setPc_pc]
  | loadl ra imm => rw [execLoadl_next ra imm s t h, State.setPc_pc]
  | lw ra imm => rw [execLw_next ra imm s t h, State.setPc_pc]
  | sw ra imm => rw [execSw_next ra imm s t h, State.setPc_pc]
  | _ => cases hsig

/-- With `pc_src` `jump`, pc becomes the address field of a JAL or J, or the low half of a JR's
register (R118). -/
theorem exec_pc_of_jump (i : Instr) (s t : State) (h : exec i s = .next t)
    (hsig : (signalsOf i).pcSrc = .jump) :
    (∃ address, (i = .jal address ∨ i = .j address) ∧ t.pc = address) ∨
      ∃ rc, i = .jr rc ∧ t.pc.toNat = (s.readReg rc).toNat % 65536 := by
  cases i using Instr.aluCases with
  | alu op ra rb rc => rw [signalsOf_aluInstr] at hsig; cases hsig
  | jal address =>
    exact .inl ⟨address, .inl rfl, by rw [execJal_next address s t h, State.setPc_pc]⟩
  | jr rc =>
    exact .inr ⟨rc, rfl, by rw [execJr_next rc s t h, State.setPc_pc, jumpRegTarget_toNat]⟩
  | j address =>
    exact .inl ⟨address, .inr rfl, by rw [execJ_next address s t h, State.setPc_pc]⟩
  | _ => cases hsig

/-- A branch has the effect of R190 for the test that decides whether it is taken. -/
theorem branchIf_effect (test : Prop) (taken : Bool) (offset : Word) (s : State)
    (htest : taken = true ↔ test) : BranchEffect test offset s (branchIf taken offset s) := by
  rw [branchIf_eq]
  refine ⟨fun ht => ?_, fun ht => ?_, fun _ _ => rfl, rfl, fun _ _ => rfl, rfl, rfl, rfl, rfl⟩
  · rw [State.setPc_pc, if_pos (htest.mpr ht), branchTarget_toInt, State.npc_toNat]
    omega
  · rw [State.setPc_pc, if_neg (mt htest.mp ht), State.npc_toNat]
    omega

/-- With `pc_src` `branch`, the instruction is a JEQ or JNE and has its branch's effect (R117,
R190). -/
theorem exec_branch_of_pcSrc (i : Instr) (s t : State) (h : exec i s = .next t)
    (hsig : (signalsOf i).pcSrc = .branch) : ∃ ra rb offset,
      (i = .jeq ra rb offset ∧ BranchEffect (s.readReg ra = s.readReg rb) offset s t) ∨
      (i = .jne ra rb offset ∧ BranchEffect (s.readReg ra ≠ s.readReg rb) offset s t) := by
  cases i using Instr.aluCases with
  | alu op ra rb rc => rw [signalsOf_aluInstr] at hsig; cases hsig
  | jeq ra rb offset =>
    obtain rfl := execJeq_next ra rb offset s t h
    exact ⟨ra, rb, offset, .inl ⟨rfl, branchIf_effect _ _ offset s beq_iff_eq⟩⟩
  | jne ra rb offset =>
    obtain rfl := execJne_next ra rb offset s t h
    exact ⟨ra, rb, offset, .inr ⟨rfl, branchIf_effect _ _ offset s bne_iff_ne⟩⟩
  | _ => cases hsig

/-- With `pc_src` `halt`, pc keeps its value (R117, R210). -/
theorem exec_pc_of_halt (i : Instr) (s t : State) (h : exec i s = .next t)
    (hsig : (signalsOf i).pcSrc = .halt) : t.pc = s.pc := by
  obtain rfl := (signalsOf_pcSrc_halt i).mp hsig
  rw [execHalt_next s t h, State.setMode_pc]

/-- The signal `halt` tells the mode after an instruction (D9). -/
theorem exec_mode_of_haltSignal (i : Instr) (s t : State) (h : exec i s = .next t) :
    t.mode = if (signalsOf i).halt = true then .halted else s.mode := by
  simp only [exec_mode i s t h, signalsOf_halt]

/-- Settles O32, signal by signal. -/
theorem signalsTellTheEffects : Obligations.SignalsTellTheEffects := by
  intro i s t h
  have hmode := exec_mode_of_haltSignal i s t h
  exact ⟨exec_regs_of_regWrite_false i s t h, exec_mem_of_memWrite_false i s t h,
    exec_flags_of_aluOp_none i s t h, exec_pc_of_inc i s t h, exec_pc_of_jump i s t h,
    exec_branch_of_pcSrc i s t h, exec_pc_of_halt i s t h,
    fun hsig => by rw [hmode, if_pos hsig], fun hsig => by rw [hmode, hsig, if_neg nofun]⟩

end Sys2Proof.Machine
end

section
/-! PROOFS. The ALU and the flags (spec/41_alu.md): the outputs of the block as numbers and bits, what the
template of R154 does to each part of the state, and with it the twelve instructions. -/

namespace Sys2Proof.Machine

/-! ## Carry and overflow (R141, R142, R157) -/

theorem addCarry_iff (a b : Word) : addCarry a b = true ↔ a.toNat + b.toNat > 0xFFFFFFFF :=
  decide_eq_true_iff

theorem subBorrow_iff (a b : Word) : subBorrow a b = true ↔ a.toNat < b.toNat := by
  rw [subBorrow_eq, decide_eq_true_iff]

theorem addOverflow_iff (a b result : Word) : addOverflow a b result = true ↔
    a.getLsbD 31 = b.getLsbD 31 ∧ result.getLsbD 31 ≠ a.getLsbD 31 := by
  simp [addOverflow, BitVec.msb_eq_getLsbD_last]

theorem subOverflow_iff (a b result : Word) : subOverflow a b result = true ↔
    a.getLsbD 31 ≠ b.getLsbD 31 ∧ result.getLsbD 31 ≠ a.getLsbD 31 := by
  simp [subOverflow, BitVec.msb_eq_getLsbD_last]

/-- The sign rule of R141 is the library's overflow of a signed sum. -/
theorem addOverflow_eq_saddOverflow (a b : Word) :
    addOverflow a b (a + b) = BitVec.saddOverflow a b := by
  rw [BitVec.saddOverflow_eq, addOverflow, bne]

/-- The sign rule of R142 is the library's overflow of a signed difference: the two say the same of the
three sign bits. -/
theorem subOverflow_eq_ssubOverflow (a b : Word) :
    subOverflow a b (a - b) = BitVec.ssubOverflow a b := by
  rw [BitVec.ssubOverflow_eq, subOverflow]
  generalize a.msb = p, b.msb = q, (a - b).msb = r
  revert p q r
  decide

theorem addOverflow_iff_not_fitsSigned (a b : Word) :
    addOverflow a b (a + b) = true ↔ ¬ FitsSigned (a.toInt + b.toInt) := by
  simp only [addOverflow_eq_saddOverflow, BitVec.saddOverflow, FitsSigned,
    Bool.or_eq_true, decide_eq_true_iff]
  omega

theorem subOverflow_iff_not_fitsSigned (a b : Word) :
    subOverflow a b (a - b) = true ↔ ¬ FitsSigned (a.toInt - b.toInt) := by
  simp only [subOverflow_eq_ssubOverflow, BitVec.ssubOverflow, FitsSigned,
    Bool.or_eq_true, decide_eq_true_iff]
  omega

theorem alu_add (a b : Word) :
    alu .add a b = ⟨a + b, addCarry a b, addOverflow a b (a + b)⟩ := by
  rw [← aluAdd_result]
  rfl

theorem alu_sub (a b : Word) :
    alu .sub a b = ⟨a - b, subBorrow a b, subOverflow a b (a - b)⟩ := by
  rw [← aluSub_result]
  rfl

/-- Settles O10: R141 and R142 give overflow by sign bits, and the library ties those to the exact
signed result. -/
theorem aluCarryIsUnsignedAndOverflowIsSigned :
    Obligations.AluCarryIsUnsignedAndOverflowIsSigned := by
  intro a b
  rw [alu_add, alu_sub]
  exact ⟨rfl, addCarry_iff a b, addOverflow_iff_not_fitsSigned a b,
    rfl, subBorrow_iff a b, subOverflow_iff_not_fitsSigned a b⟩

/-! ## The shifts (R149 to R152, R155) -/

/-- The bits of a word moved up, 0 coming in below. -/
theorem getLsbD_shiftLeft_shiftAmount (a b : Word) (k : Nat) (hk : k < 32) :
    (a <<< shiftAmount b).getLsbD k =
      (decide (b.toNat % 32 ≤ k) && a.getLsbD (k - b.toNat % 32)) := by
  rw [BitVec.getLsbD_shiftLeft, shiftAmount_eq, decide_eq_true hk, Bool.true_and, ← decide_not]
  simp only [Nat.not_lt]

/-- The bits of a word moved down, bit 31 coming in above. -/
theorem getLsbD_sshiftRight_shiftAmount (a b : Word) (k : Nat) (hk : k < 32) :
    (a.sshiftRight (shiftAmount b)).getLsbD k =
      if k + b.toNat % 32 < 32 then a.getLsbD (k + b.toNat % 32) else a.getLsbD 31 := by
  rw [BitVec.getLsbD_sshiftRight, BitVec.msb_eq_getLsbD_last, shiftAmount_eq, Nat.add_comm,
    decide_eq_false (Nat.not_le.mpr hk), Bool.not_false, Bool.true_and]

/-- The bits of a word moved down, 0 coming in above. -/
theorem getLsbD_ushiftRight_shiftAmount (a b : Word) (k : Nat) :
    (a >>> shiftAmount b).getLsbD k =
      if k + b.toNat % 32 < 32 then a.getLsbD (k + b.toNat % 32) else false := by
  rw [BitVec.getLsbD_ushiftRight, shiftAmount_eq, Nat.add_comm]
  split
  · rfl
  · next h => exact BitVec.getLsbD_of_ge _ _ (by omega)

/-- A shift by 0 gives its first operand (R155). -/
theorem alu_shift_zero (op : AluOp) (a b : Word)
    (hop : op ∈ [AluOp.sal, AluOp.sll, AluOp.sar, AluOp.slr]) (hb : shiftAmount b = 0) :
    (alu op a b).result = a := by
  simp only [List.mem_cons, List.not_mem_nil, or_false] at hop
  obtain rfl | rfl | rfl | rfl := hop
  · show a <<< shiftAmount b = a
    rw [hb, BitVec.shiftLeft_zero]
  · show a <<< shiftAmount b = a
    rw [hb, BitVec.shiftLeft_zero]
  · show a.sshiftRight (shiftAmount b) = a
    rw [hb, BitVec.sshiftRight_zero]
  · show a >>> shiftAmount b = a
    rw [hb, BitVec.ushiftRight_zero]

/-- Settles O11, shift by shift. -/
theorem shiftsUseTheLowFiveBits : Obligations.ShiftsUseTheLowFiveBits := fun a b =>
  ⟨getLsbD_shiftLeft_shiftAmount a b, getLsbD_shiftLeft_shiftAmount a b,
    getLsbD_sshiftRight_shiftAmount a b, fun k _ => getLsbD_ushiftRight_shiftAmount a b k,
    fun op hop hb => alu_shift_zero op a b hop ((shiftAmount_eq b).trans hb)⟩

theorem shiftLeft_shiftAmount_toNat (a b : Word) :
    (a <<< shiftAmount b).toNat = a.toNat * 2 ^ (b.toNat % 32) % 2 ^ 32 := by
  rw [BitVec.toNat_shiftLeft, Nat.shiftLeft_eq, shiftAmount_eq]

theorem sshiftRight_shiftAmount_toInt (a b : Word) :
    (a.sshiftRight (shiftAmount b)).toInt = a.toInt / 2 ^ (b.toNat % 32) := by
  rw [BitVec.toInt_sshiftRight, Int.shiftRight_eq_div_pow, shiftAmount_eq]
  norm_cast

theorem ushiftRight_shiftAmount_toNat (a b : Word) :
    (a >>> shiftAmount b).toNat = a.toNat / 2 ^ (b.toNat % 32) := by
  rw [BitVec.toNat_ushiftRight, Nat.shiftRight_eq_div_pow, shiftAmount_eq]

/-! ## The block by opcode byte (R156) -/

/-- Settles O13: the lookup finds a mnemonic by its own number, and what it finds has the byte as its
number. -/
theorem aluBlockFailsOutsideTheTwelve : Obligations.AluBlockFailsOutsideTheTwelve := by
  refine fun opc hopc b x y => ⟨fun m op hop hb => ?_, fun hb => ?_⟩
  · simp [aluByCode, hb, lookupOpcode_self opc hopc m, hop]
  · cases hm : lookupOpcode opc b with
    | none => simp [aluByCode, hm]
    | some m =>
      have hnone : aluOpOf m = none := by
        by_contra hsome
        exact hb m (Option.isSome_iff_ne_none.mpr hsome) (lookupOpcode_sound opc b m hm).symm
      simp [aluByCode, hm, hnone]

/-! ## The flag update (R153) -/

theorem flagsOf_eq (o : AluOut) : flagsOf o =
    { negative := o.result.getLsbD 31, zero := decide (o.result = 0), carry := o.carry,
      overflow := o.overflow } := by
  rw [flagsOf, BitVec.msb_eq_getLsbD_last]

/-- An instruction whose signals name an ALU operation is that operation's (R115). -/
theorem eq_aluInstr_of_aluOp (i : Instr) (op : AluOp) (h : (signalsOf i).aluOp = some op) :
    ∃ ra rb rc, i = aluInstr op ra rb rc := by
  cases i using Instr.aluCases with
  | alu op' ra rb rc =>
    rw [signalsOf_aluInstr] at h
    cases h
    exact ⟨ra, rb, rc, rfl⟩
  | _ => cases h

/-- Settles O12: the instructions with an ALU operation run the template of R154, and no other writes a
flag. -/
theorem flagsAreUpdatedFromTheAluTriple : Obligations.FlagsAreUpdatedFromTheAluTriple := by
  refine ⟨fun result c v => flagsOf_eq ⟨result, c, v⟩,
    fun i s t h => ⟨fun op hop => ?_, exec_flags_of_aluOp_none i s t h⟩⟩
  obtain ⟨ra, rb, rc, rfl⟩ := eq_aluInstr_of_aluOp i op hop
  obtain rfl := exec_aluInstr_next op ra rb rc s t h
  refine ⟨rb, rc, _, _, sourceRegs_aluInstr op ra rb rc, .inl ⟨rfl, rfl⟩, rfl, fun d hd hd0 => ?_⟩
  obtain rfl : ra = d := Option.some.inj ((destReg_aluInstr op ra rb rc).symm.trans hd)
  exact s.readReg_writeReg_same ra _ hd0

/-! ## What the template of R154 does -/

/-- Every ALU instruction completes with its triple's result and flags, takes npc, and leaves everything
else. -/
theorem exec_aluInstr_effect (op : AluOp) (ra rb rc : RegIdx) (s : State) (out : AluOut)
    (hout : alu op (s.readReg rb) (s.readReg rc) = out) :
    ∃ t, exec (aluInstr op ra rb rc) s = .next t ∧ WritesReg ra out.result s t ∧
      t.flags = flagsOf out ∧ t.pc = s.pc + 1 ∧ SameMemBut [] s t ∧ SameControl s t := by
  subst hout
  refine ⟨_, exec_aluInstr op ra rb rc s, fun r => s.readReg_writeReg ra r _, rfl, rfl,
    fun a _ => ?_, ?_⟩
  · simp
  · simp [SameControl]

/-- An operation whose carry and overflow outputs are false has the effect the statements name. -/
theorem exec_aluInstr_logicEffect (op : AluOp) (ra rb rc : RegIdx) (s : State) (v : Word)
    (hout : alu op (s.readReg rb) (s.readReg rc) = ⟨v, false, false⟩) :
    ∃ t, exec (aluInstr op ra rb rc) s = .next t ∧ LogicEffect ra v s t := by
  obtain ⟨t, ht, hreg, hflags, hrest⟩ := exec_aluInstr_effect op ra rb rc s _ hout
  exact ⟨t, ht, hreg, hflags.trans (flagsOf_eq _), hrest⟩

/-- The same when the statement gives the result by a property of it. -/
theorem exec_aluInstr_logicEffect_of (op : AluOp) (ra rb rc : RegIdx) (s : State) {v : Word}
    {P : Word → Prop} (hout : alu op (s.readReg rb) (s.readReg rc) = ⟨v, false, false⟩) (hv : P v) :
    ∃ t v, exec (aluInstr op ra rb rc) s = .next t ∧ LogicEffect ra v s t ∧ P v := by
  obtain ⟨t, ht, heffect⟩ := exec_aluInstr_logicEffect op ra rb rc s v hout
  exact ⟨t, v, ht, heffect, hv⟩

/-! ## The twelve instructions (R141 to R152) -/

/-- Settles O14: the template with ADD's triple. -/
theorem addResultFlagsAndFrame : Obligations.AddResultFlagsAndFrame := by
  intro ra rb rc s
  obtain ⟨t, ht, hreg, hflags, hrest⟩ := exec_aluInstr_effect .add ra rb rc s _ (alu_add _ _)
  rw [flagsOf_eq] at hflags
  refine ⟨t, ht, hreg, ?_, ?_, ?_, ?_, hrest⟩
  · rw [hflags]
  · rw [hflags]
  · rw [hflags, addCarry_iff]
  · rw [hflags, addOverflow_iff]

/-- Settles O15: the template with SUB's triple; the difference is 0 exactly for equal operands. -/
theorem subResultFlagsAndFrame : Obligations.SubResultFlagsAndFrame := by
  intro ra rb rc s
  obtain ⟨t, ht, hreg, hflags, hrest⟩ := exec_aluInstr_effect .sub ra rb rc s _ (alu_sub _ _)
  rw [flagsOf_eq] at hflags
  refine ⟨t, ht, hreg, ?_, ?_, ?_, ?_, hrest⟩
  · rw [hflags, decide_eq_decide, sub_eq_zero]
  · rw [hflags]
  · rw [hflags, subBorrow_iff]
  · rw [hflags, subOverflow_iff]

/-- Settles O16: the triple is `(0, false, false)` for all operands. -/
theorem zeroResultFlagsAndFrame : Obligations.ZeroResultFlagsAndFrame := by
  intro ra rb rc s
  obtain ⟨t, ht, hreg, hflags, hrest⟩ := exec_aluInstr_logicEffect .zero ra rb rc s 0 rfl
  exact ⟨t, ht, ⟨hreg, hflags, hrest⟩, hflags⟩

/-- Settles O17, by the operation. -/
theorem bitwiseResultFlagsAndFrame : Obligations.BitwiseResultFlagsAndFrame := by
  rintro i ra rb rc f s (⟨rfl, rfl⟩ | ⟨rfl, rfl⟩ | ⟨rfl, rfl⟩)
  · exact exec_aluInstr_logicEffect_of .xor ra rb rc s rfl fun k _ => BitVec.getLsbD_xor
  · exact exec_aluInstr_logicEffect_of .or ra rb rc s rfl fun k _ => BitVec.getLsbD_or
  · exact exec_aluInstr_logicEffect_of .and ra rb rc s rfl fun k _ => BitVec.getLsbD_and

/-- The complement is the difference from the all-ones word (R147). -/
theorem alu_not (a b : Word) : alu .not a b = ⟨0xFFFFFFFF#32 - a, false, false⟩ :=
  congrArg (AluOut.mk · false false) (BitVec.allOnes_sub_eq_not a).symm

/-- Settles O18: the triples name `x[rb]` alone. -/
theorem notAndCopyResultFlagsAndFrame : Obligations.NotAndCopyResultFlagsAndFrame :=
  fun ra rb rc s => ⟨exec_aluInstr_logicEffect .not ra rb rc s _ (alu_not _ _),
    exec_aluInstr_logicEffect .copy ra rb rc s _ rfl⟩

/-- Settles O19: both names have the same operation, and moving bits up multiplies. -/
theorem leftShiftsMultiply : Obligations.LeftShiftsMultiply := by
  rintro i ra rb rc s (rfl | rfl)
  · exact exec_aluInstr_logicEffect_of .sal ra rb rc s rfl (shiftLeft_shiftAmount_toNat _ _)
  · exact exec_aluInstr_logicEffect_of .sll ra rb rc s rfl (shiftLeft_shiftAmount_toNat _ _)

/-- Settles O20: moving bits down divides, the signed value when bit 31 comes in above and the unsigned
value when 0 does. -/
theorem rightShiftsDivide : Obligations.RightShiftsDivide := by
  intro ra rb rc s
  constructor
  · exact exec_aluInstr_logicEffect_of .sar ra rb rc s rfl (sshiftRight_shiftAmount_toInt _ _)
  · exact exec_aluInstr_logicEffect_of .slr ra rb rc s rfl (ushiftRight_shiftAmount_toNat _ _)

end Sys2Proof.Machine
end

section
/-! PROOFS. The half-word loads (spec/42_immediate_loads.md): what the load template, a register write
and npc, does to each part of the state, and with it LOADH and LOADL. -/

namespace Sys2Proof.Machine

/-- The template of R170, R171 and R181 has the effect the statements name. -/
theorem writeReg_setPc_npc_loadEffect (ra : RegIdx) (v : Word) (s : State) :
    LoadEffect ra v s ((s.writeReg ra v).setPc s.npc) := by
  refine ⟨fun r => s.readReg_writeReg ra r v, ?flags, rfl, fun a _ => ?mem, ?control⟩
  case flags => rw [State.setPc_flags, State.writeReg_flags]
  case mem => rw [State.setPc_mem, State.writeReg_mem]
  case control => simp [SameControl]

/-- Settles O21: both run the load template, LOADH with the immediate packed above the old lower half
and LOADL with it packed below the old upper half. -/
theorem halfWordLoadsReplaceOneHalf : Obligations.HalfWordLoadsReplaceOneHalf := by
  intro ra imm s
  constructor
  · exact ⟨_, packHigh imm (s.readReg ra), rfl, writeReg_setPc_npc_loadEffect ra _ s,
      packHigh_toNat imm _⟩
  · exact ⟨_, packLow imm (s.readReg ra), rfl, writeReg_setPc_npc_loadEffect ra _ s,
      packLow_toNat imm _⟩

end Sys2Proof.Machine
end

section
/-! PROOFS. The memory accesses (spec/43_load_store.md): LW is the load template of the half-word loads
with a memory word as its value, SW one memory write and npc. -/

namespace Sys2Proof.Machine

/-- LW runs the load template with the word at the immediate, which is the effective address (R180,
R181). -/
theorem exec_lw (ra : RegIdx) (imm : Half) (s : State) :
    exec (.lw ra imm) s = .next ((s.writeReg ra (s.mem.read imm)).setPc s.npc) := rfl

/-- SW writes its register's word at the immediate, which is the effective address (R180, R182). -/
theorem exec_sw (ra : RegIdx) (imm : Half) (s : State) :
    exec (.sw ra imm) s = .next ((s.writeMem imm (s.readReg ra)).setPc s.npc) := rfl

/-- Settles O23: the load template has the effect for every value. -/
theorem lwLoadsTheWordAtTheImmediate : Obligations.LwLoadsTheWordAtTheImmediate :=
  fun ra imm s => ⟨_, exec_lw ra imm s, writeReg_setPc_npc_loadEffect ra (s.mem.read imm) s⟩

/-- Settles O24: what every address reads after the write gives the stored word and the frame of the
memory, and the write reaches nothing else. -/
theorem swStoresAtTheImmediateOnly : Obligations.SwStoresAtTheImmediateOnly := by
  intro ra imm s
  refine ⟨_, exec_sw ra imm s, ?stored, rfl, fun a ha => ?otherWords, fun r _ => ?regs, ?flags, rfl,
    ?control⟩
  case stored => exact s.mem.read_write_same imm _
  case otherWords => exact s.mem.read_write_other imm a _ (List.mem_singleton.not.mp ha)
  case regs => rw [State.setPc_readReg, State.writeMem_readReg]
  case flags => rw [State.setPc_flags, State.writeMem_flags]
  case control => simp [SameControl]

end Sys2Proof.Machine
end

section
/-! PROOFS. The branches (spec/44_branches.md): JEQ and JNE are one branch template with two tests, and
the template has the effect of R190 for whatever test decides it. -/

namespace Sys2Proof.Machine

/-- JEQ is the branch template with the test for equality of all 32 bits (R191). -/
theorem exec_jeq (ra rb : RegIdx) (offset : Word) (s : State) :
    exec (.jeq ra rb offset) s = .next (branchIf (s.readReg ra == s.readReg rb) offset s) := rfl

/-- JNE is the branch template with the test for difference in some bit (R192). -/
theorem exec_jne (ra rb : RegIdx) (offset : Word) (s : State) :
    exec (.jne ra rb offset) s = .next (branchIf (s.readReg ra != s.readReg rb) offset s) := rfl

/-- Settles O28: each branch runs the template with a test that decides its proposition. -/
theorem branchesGoToNpcPlusOffset : Obligations.BranchesGoToNpcPlusOffset := by
  intro ra rb offset s
  constructor
  · exact ⟨_, exec_jeq ra rb offset s, branchIf_effect _ _ offset s beq_iff_eq⟩
  · exact ⟨_, exec_jne ra rb offset s, branchIf_effect _ _ offset s bne_iff_ne⟩

end Sys2Proof.Machine
end

section
/-! PROOFS. The jumps (spec/45_jumps.md): JAL is one write of the link register and a new pc, JR and J
a new pc alone, and the low half of JAL's link value is the incremented pc again. -/

namespace Sys2Proof.Machine

/-- JAL links the incremented pc and takes its address field (R200). -/
theorem exec_jal (address : Addr) (s : State) :
    exec (.jal address) s = .next ((s.writeReg linkReg (linkValue s.npc)).setPc address) := rfl

/-- JR takes the low half of its register (R201). -/
theorem exec_jr (rc : RegIdx) (s : State) :
    exec (.jr rc) s = .next (s.setPc (jumpRegTarget (s.readReg rc))) := rfl

/-- J takes its address field (R202). -/
theorem exec_j (address : Addr) (s : State) :
    exec (.j address) s = .next (s.setPc address) := rfl

/-- The link register is register 31 and not register 0, so it reads what a JAL wrote there (R22,
R200). -/
theorem readReg_writeReg_linkReg (s : State) (v : Word) :
    (s.writeReg linkReg v).readReg 31#5 = v :=
  s.readReg_writeReg_same linkReg v (by decide)

/-- Setting pc leaves everything the frame of a jump names (R201, R202). -/
theorem setPc_onlyPcDiffers (s : State) (target : Addr) : OnlyPcDiffers s (s.setPc target) :=
  ⟨fun r _ => s.setPc_readReg target r, s.setPc_flags target, fun _ _ => by rw [State.setPc_mem],
    s.setPc_mode target, s.setPc_ir target, s.setPc_cycleCount target,
    s.setPc_instructionCount target⟩

/-- Settles O27: the low half of the link value, which register 31 reads after the JAL, is the
incremented pc. -/
theorem jalThenJrReturns : Obligations.JalThenJrReturns := by
  intro address s
  refine ⟨_, _, exec_jal address s, exec_jr 31#5 _, ?_⟩
  rw [State.setPc_pc, State.setPc_readReg, readReg_writeReg_linkReg, jumpRegTarget_linkValue,
    State.npc]

/-- Settles O25: the register write gives the link and leaves all but register 31 and pc. -/
theorem jalLinksAndJumps : Obligations.JalLinksAndJumps := by
  intro address s
  refine ⟨_, exec_jal address s, State.setPc_pc _ address, ?link, fun r hr => ?otherRegs, ?flags,
    fun a _ => ?mem, ?control⟩
  case link =>
    rw [State.setPc_readReg, readReg_writeReg_linkReg, linkValue_toNat, State.npc_toNat]
  case otherRegs =>
    rw [State.setPc_readReg]
    exact s.readReg_writeReg_other linkReg r _ (List.mem_singleton.not.mp hr)
  case flags => rw [State.setPc_flags, State.writeReg_flags]
  case mem => rw [State.setPc_mem, State.writeReg_mem]
  case control => simp [SameControl]

/-- Settles O26: both set pc and nothing else, JR to the low half of its register. -/
theorem jrAndJChangePcAlone : Obligations.JrAndJChangePcAlone := by
  intro rc address s
  constructor
  · exact ⟨_, exec_jr rc s, jumpRegTarget_toNat (s.readReg rc), setPc_onlyPcDiffers s _⟩
  · exact ⟨_, exec_j address s, s.setPc_pc address, setPc_onlyPcDiffers s address⟩

end Sys2Proof.Machine
end

section
/-! PROOFS. HALT (spec/46_halt.md): one write of the run mode, which leaves pc on the HALT word. -/

namespace Sys2Proof.Machine

/-- HALT sets the mode (R210). -/
theorem exec_halt (s : State) : exec .halt s = .next (s.setMode .halted) := rfl

/-- Settles O29: the next state is the old one with the mode set. -/
theorem haltChangesTheModeAlone : Obligations.HaltChangesTheModeAlone := by
  intro s
  exact ⟨_, exec_halt s, s.setMode_mode .halted, s.setMode_pc .halted,
    fun r _ => s.setMode_readReg .halted r, fun _ _ => by rw [State.setMode_mem],
    s.setMode_flags .halted, s.setMode_ir .halted, s.setMode_cycleCount .halted,
    s.setMode_instructionCount .halted⟩

end Sys2Proof.Machine
end

section
/-! PROOFS. The exceptions (spec/60_exceptions.md): which words raise the one error of a step, and what the
faulting step leaves. -/

namespace Sys2Proof.Machine

/-- Settles O36: the word is one the decoder rejects, which takes the fault, or one it decodes, whose
step does not end in mode fault. -/
theorem unassignedOpcodeFaultsTheStep : Obligations.UnassignedOpcodeFaultsTheStep := by
  intro opc s hm
  have hrejects := decodeWith_eq_none_iff opc s.fetch
  have herror := stepError_running opc s hm
  constructor
  · intro hword
    have hd : decodeWith opc s.fetch = none := hrejects.mpr hword
    exact ⟨_, stepWith_faults opc s hm hd, s.takeFault_mode s.fetch,
      fun r _ => s.takeFault_readReg s.fetch r, fun _ _ => by rw [State.takeFault_mem],
      herror.trans (if_pos hd)⟩
  · intro hword
    have hd : decodeWith opc s.fetch ≠ none := mt hrejects.mp hword
    obtain ⟨t, ht⟩ := stepWith_total opc s
    obtain ⟨-, -, hfault⟩ := modeTransitions opc s t ht
    exact ⟨t, ht, mt (hfault hm).mp hd, herror.trans (if_neg hd)⟩

/-- Settles O37, by the two things a step from mode running can do: only a rejected word ends it in
mode fault, and then the fault writes ir and the mode alone. -/
theorem faultingStepKeepsFlagsAndCounters : Obligations.FaultingStepKeepsFlagsAndCounters := by
  intro opc s t hm h hmode
  obtain ⟨hm', -⟩ | ⟨-, -, rfl⟩ | ⟨-, i, u, -, hu, rfl⟩ := stepWith_cases opc s t h
  · exact absurd hm hm'
  · exact ⟨s.takeFault_ir s.fetch, s.takeFault_flags s.fetch, s.takeFault_cycleCount s.fetch,
      s.takeFault_instructionCount s.fetch⟩
  · obtain ⟨-, hfault⟩ := exec_mode_of_running i s u hm hu
    exact absurd hmode hfault

end Sys2Proof.Machine
end

section
/-! PROOFS. Boot and the host's runs (spec/70_reset_and_hazards.md): what a load and a launch
install, and what one turn of a run does, from which runs compose and report their fault. -/

namespace Sys2Proof.Machine

/-! ## Loading and launching a program (R253, R254, R259) -/

/-- After words were written from `start` on, word `k` of them is read at `start + k`. -/
theorem writeWords_read_inside (words : List Word) (m : Memory) (start k : Nat) (w : Word)
    (hfit : start + words.length ≤ memorySize) (hk : words[k]? = some w) :
    (writeWords m start words).read (BitVec.ofNat 16 (start + k)) = w := by
  obtain ⟨hlt, -⟩ := List.getElem?_eq_some_iff.mp hk
  have haddr : (BitVec.ofNat 16 (start + k)).toNat = start + k :=
    Nat.mod_eq_of_lt (lt_of_lt_of_le (by omega) hfit)
  rw [writeWords_read words m start _ hfit, haddr, if_neg (by omega), Nat.add_sub_cancel_left, hk,
    Option.getD_some]

/-- Every address before the words written or behind them is read as before. -/
theorem writeWords_read_outside (words : List Word) (m : Memory) (start : Nat) (a : Addr)
    (hfit : start + words.length ≤ memorySize)
    (ha : a.toNat < start ∨ start + words.length ≤ a.toNat) :
    (writeWords m start words).read a = m.read a := by
  rw [writeWords_read words m start a hfit]
  split
  · rfl
  · rw [List.getElem?_eq_none (by omega), Option.getD_none]

/-- Settles O53: a load that fits writes its words into the memory alone. -/
theorem loadInstallsAllOrNothing : Obligations.LoadInstallsAllOrNothing := by
  intro words start s
  refine ⟨fun hstart hfit => ?_, hostMemLoad_error words start s⟩
  exact ⟨_, hostMemLoad_ok words start s hstart hfit,
    fun k w => writeWords_read_inside words s.mem start k w hfit,
    fun a => writeWords_read_outside words s.mem start a hfit,
    fun _ _ => rfl, ⟨rfl, rfl, rfl, rfl⟩, rfl, rfl⟩

/-- A program that fits is launched in the reset state with its words written (R253, R254). -/
theorem launch_ok (words : List Word) (start : Nat) (hstart : start < memorySize)
    (hfit : start + words.length ≤ memorySize) :
    launch words start =
      .ok { State.reset with mem := writeWords State.reset.mem start words, pc := entryPc } := by
  rw [launch, launchAt, hostMemLoad_ok words start State.reset hstart hfit]
  rfl

/-- A program that does not fit is not launched (R66, R259). -/
theorem launch_error (words : List Word) (start : Nat)
    (h : memorySize ≤ start ∨ memorySize < start + words.length) :
    launch words start = .error .rangeViolation := by
  rw [launch, launchAt, hostMemLoad_error words start State.reset h]
  rfl

/-- Settles O57: all but the memory and pc is the reset state's, and the words were written over a
memory that reads 0 everywhere and is in canonical form. -/
theorem launchIsResetThenLoad : Obligations.LaunchIsResetThenLoad := by
  intro words start
  refine ⟨fun hstart hfit => ?_, launch_error words start⟩
  refine ⟨_, launch_ok words start hstart hfit, rfl, rfl, rfl, rfl, rfl, rfl,
    State.reset_readReg, ?installed, ?otherWords, ?inv⟩
  case installed => exact fun k w => writeWords_read_inside words _ start k w hfit
  case otherWords => exact fun a => writeWords_read_outside words State.reset.mem start a hfit
  case inv =>
    obtain ⟨hmemWf, hslot, hcount⟩ := invariantHoldsAtReset
    exact ⟨writeWords_wf words _ start hmemWf, hslot, hcount⟩

/-! ## Runs (R258, R270) -/

/-- One turn of a run in mode running: a word the decoder rejects ends the run in mode fault with the
error that names it, and after any other word the run goes on from a state that is not in mode
fault. -/
theorem hostRun_turn (opc : OpcodeMap) (s : State) (hm : s.mode = .running) :
    (∀ n, hostRun opc (n + 1) s =
      (s.takeFault s.fetch, some (.unrecognizedOpcode s.fetch))) ∨
    ∃ t, t.mode ≠ .fault ∧ ∀ n, hostRun opc (n + 1) s = hostRun opc n t := by
  obtain ⟨t, ht⟩ := stepWith_total opc s
  have hstep := hostStep_eq opc s t ht
  rw [stepError_running opc s hm] at hstep
  cases hd : decodeWith opc s.fetch with
  | none =>
    obtain rfl : s.takeFault s.fetch = t :=
      Host.Outcome.next.inj ((stepWith_faults opc s hm hd).symm.trans ht)
    rw [if_pos hd] at hstep
    exact .inl fun n => by rw [hostRun_running opc n s hm, hstep, if_neg nofun]
  | some i =>
    have hok : decodeWith opc s.fetch ≠ none := by rw [hd]; nofun
    obtain ⟨-, -, hfault⟩ := modeTransitions opc s t ht
    rw [if_neg hok] at hstep
    exact .inr ⟨t, mt (hfault hm).mp hok, fun n => by
      rw [hostRun_running opc n s hm, hstep, if_pos rfl]⟩

/-- Settles O55, by induction on the length of the first run: a run that its first turn ended is not
taken up again, any other goes on from the state after that turn. -/
theorem runsCompose : Obligations.RunsCompose := by
  intro opc m n
  induction m with
  | zero => intro s; rw [Nat.zero_add]; rfl
  | succ m ih =>
    intro s
    rw [Nat.add_right_comm m 1 n]
    by_cases hm : s.mode = .running
    · obtain hfaults | ⟨t, -, hgoesOn⟩ := hostRun_turn opc s hm
      · rw [hfaults, hfaults, hostRun_stuck opc n (s.takeFault s.fetch) nofun]
      · rw [hgoesOn, hgoesOn, ih t]
    · rw [hostRun_stuck opc _ s hm, hostRun_stuck opc _ s hm, hostRun_stuck opc n s hm]

/-- How a run ends that starts outside mode fault: there with the error that names the word in ir, or
elsewhere with no error. -/
theorem hostRun_ends (opc : OpcodeMap) (n : Nat) (s : State) (hs : s.mode ≠ .fault) :
    ((hostRun opc n s).1.mode = .fault ∧
      (hostRun opc n s).2 = some (.unrecognizedOpcode (hostRun opc n s).1.ir)) ∨
    ((hostRun opc n s).1.mode ≠ .fault ∧ (hostRun opc n s).2 = none) := by
  induction n generalizing s with
  | zero => exact .inr ⟨hs, rfl⟩
  | succ n ih =>
    by_cases hm : s.mode = .running
    · obtain hfaults | ⟨t, ht, hgoesOn⟩ := hostRun_turn opc s hm
      · rw [hfaults]
        exact .inl ⟨rfl, rfl⟩
      · rw [hgoesOn]
        exact ih t ht
    · rw [hostRun_stuck opc _ s hm]
      exact .inr ⟨hs, rfl⟩

/-- Settles O56: mode running is not mode fault, and the two ways to end exclude each other. -/
theorem runReportsExactlyTheFault : Obligations.RunReportsExactlyTheFault := by
  intro opc n s hm
  obtain ⟨hmode, herror⟩ | ⟨hmode, herror⟩ := hostRun_ends opc n s (by rw [hm]; nofun)
  · exact ⟨fun _ => herror, absurd hmode⟩
  · exact ⟨fun h => absurd h hmode, fun _ => herror⟩

end Sys2Proof.Machine
end

section
/-! PROOFS. The clock (spec/70_reset_and_hazards.md R251, R263, R264): what the ports show for a
decoded word, what the edge commits for each kind of row of the signal table, and that this is what
the instruction's own rule and the step leave. -/

namespace Sys2Proof

/-- The byte in a decoded word's record leads the lookup to the instruction's own mnemonic (R90,
R111). -/
theorem lookup_record_of_decodeWith (opc : OpcodeMap) (w : Word) (i : Instr)
    (hd : decodeWith opc w = some i) :
    (i.record opc).opByte.bind (lookupOpcode opc) = i.opcode := by
  by_cases hw : w = haltWord
  · rw [hw, decodeWith_haltWord] at hd
    cases hd
    rfl
  · rw [decodeWith_other opc w hw] at hd
    obtain ⟨m, hlookup, rfl⟩ := Option.map_eq_some_iff.mp hd
    rw [Machine.record_opByte, fieldsOf_opcode, Option.map_some, Option.bind_some,
      lookupOpcode_sound opc _ m hlookup, hlookup]

/-- The operands of a decoded ALU instruction stand where format R has them (R81). -/
theorem aluInstr_fields_of_decodeWith (opc : OpcodeMap) (w : Word) (op : AluOp) (ra rb rc : RegIdx)
    (hd : decodeWith opc w = some (aluInstr op ra rb rc)) :
    ra = raField w ∧ rb = rbField w ∧ rc = rcField w := by
  cases op <;> simpa [aluInstr, fieldsOf] using eq_fieldsOf_of_decodeWith opc w _ _ hd rfl

@[simp] theorem format_aluInstr (op : AluOp) (ra rb rc : RegIdx) :
    (aluInstr op ra rb rc).format = .r := by
  cases op <;> rfl

/-- No ALU instruction is a JAL, whose format is J. -/
theorem opcode_aluInstr_ne_jal (op : AluOp) (ra rb rc : RegIdx) :
    (aluInstr op ra rb rc).opcode ≠ some .jal := by
  intro h
  have hformat := format_aluInstr op ra rb rc
  rw [Instr.format, h] at hformat
  cases hformat

namespace Machine

/-! ## The ports of a decoded word (R263) -/

section Ports

variable {opc : OpcodeMap} {s : State} {i : Instr}

theorem currentRecord_of_decodeWith (hd : decodeWith opc s.fetch = some i) :
    currentRecord opc s = some (i.record opc) :=
  congrArg (Option.map (Instr.record opc)) hd

theorem ctrlPort_of_decodeWith (hd : decodeWith opc s.fetch = some i) :
    ctrlPort opc s = some (signalsOf i) := by
  obtain ⟨haccepts, -⟩ := controlUnitAcceptsEveryDecodedWord opc
  simp only [ctrlPort, currentRecord_of_decodeWith hd, haccepts s.fetch i hd]

/-- A word the decoder rejects has no control signals. -/
theorem ctrlPort_of_rejected (hd : decodeWith opc s.fetch = none) : ctrlPort opc s = none := by
  simp [ctrlPort, currentRecord, decodeRecordWith, hd]

theorem currentFormatIs_of_decodeWith (hd : decodeWith opc s.fetch = some i) (f : Format) :
    currentFormatIs opc s f = decide (i.format = f) := by
  simp only [currentFormatIs, currentRecord_of_decodeWith hd, record_format]

theorem currentOpcodeIs_of_decodeWith (hd : decodeWith opc s.fetch = some i) (m : Opcode) :
    currentOpcodeIs opc s m = decide (i.opcode = some m) := by
  simp only [currentOpcodeIs, currentRecord_of_decodeWith hd, lookup_record_of_decodeWith opc _ i hd]

theorem rfRdata1Port_of_decodeWith (hd : decodeWith opc s.fetch = some i) :
    rfRdata1Port opc s =
      s.readReg (if i.format = .r then rbField s.fetch else raField s.fetch) := by
  simp only [rfRdata1Port, rfRaddr1Port, currentFormatIs_of_decodeWith hd, decide_eq_true_eq]

theorem rfRdata2Port_of_format_r (hd : decodeWith opc s.fetch = some i) (hf : i.format = .r) :
    rfRdata2Port opc s = s.readReg (rcField s.fetch) := by
  simp [rfRdata2Port, rfRaddr2Port, currentFormatIs_of_decodeWith hd, hf]

theorem rfRdata2Port_of_format_b (hd : decodeWith opc s.fetch = some i) (hf : i.format = .b) :
    rfRdata2Port opc s = s.readReg (rbField s.fetch) := by
  simp [rfRdata2Port, rfRaddr2Port, currentFormatIs_of_decodeWith hd, hf]

theorem rfWaddrPort_of_decodeWith (hd : decodeWith opc s.fetch = some i) :
    rfWaddrPort opc s = if i.opcode = some .jal then linkReg else raField s.fetch := by
  simp only [rfWaddrPort, currentOpcodeIs_of_decodeWith hd, decide_eq_true_eq]

theorem aluPort_of_decodeWith (hd : decodeWith opc s.fetch = some i) :
    aluPort opc s = (signalsOf i).aluOp.map
      fun op => alu op (rfRdata1Port opc s) (rfRdata2Port opc s) := by
  simp only [aluPort, ctrlPort_of_decodeWith hd]

/-- What is written to a register when it is no ALU result (R124). -/
theorem rfWdataPort_of_aluOp_none (hd : decodeWith opc s.fetch = some i)
    (hop : (signalsOf i).aluOp = none) :
    rfWdataPort opc s =
      if (signalsOf i).memToReg then dmemRdataPort s
      else if i.opcode = some .jal then linkValue s.npc
      else if i.opcode = some .loadh then packHigh (immField s.fetch) (rfRdata1Port opc s)
      else if i.opcode = some .loadl then packLow (immField s.fetch) (rfRdata1Port opc s)
      else Config.idleWdata s.fetch := by
  simp only [rfWdataPort, aluPort_of_decodeWith hd, hop, Option.map_none, gated,
    ctrlPort_of_decodeWith hd, currentOpcodeIs_of_decodeWith hd, decide_eq_true_eq]

theorem jumpTargetPort_of_decodeWith (hd : decodeWith opc s.fetch = some i) :
    jumpTargetPort opc s =
      if i.format = .jr then jumpRegTarget (rfRdata1Port opc s) else addrField s.fetch := by
  simp only [jumpTargetPort, currentFormatIs_of_decodeWith hd, decide_eq_true_eq]

theorem takenPort_of_decodeWith (hd : decodeWith opc s.fetch = some i) :
    takenPort opc s = if i.opcode = some .jeq then rfRdata1Port opc s == rfRdata2Port opc s
      else rfRdata1Port opc s != rfRdata2Port opc s := by
  simp only [takenPort, currentOpcodeIs_of_decodeWith hd, decide_eq_true_eq]

end Ports

/-! ## What the edge commits, by kind of row (R115, R264) -/

section Rows

variable {opc : OpcodeMap} {s : State} {c : ControlSignals}

theorem nextPcPort_of_inc (h : c.pcSrc = .inc) : nextPcPort opc s c = s.npc := by
  simp only [nextPcPort, h]

theorem nextPcPort_of_jump (h : c.pcSrc = .jump) : nextPcPort opc s c = jumpTargetPort opc s := by
  simp only [nextPcPort, h]

theorem nextPcPort_of_branch (h : c.pcSrc = .branch) :
    nextPcPort opc s c =
      if takenPort opc s then branchTarget s.npc (offsetField s.fetch) else s.npc := by
  simp only [nextPcPort, h]

/-- A word the decoder rejects commits the fault, having no control signals (R126, R223). -/
theorem commitEdge_of_rejected (hd : decodeWith opc s.fetch = none) :
    commitEdge opc s = s.takeFault s.fetch := by
  simp only [commitEdge, ctrlPort_of_rejected hd, State.takeFault]

/-- The rows of the ALU operations. -/
theorem commitEdge_of_aluSignals {op : AluOp} {out : AluOut}
    (hc : ctrlPort opc s = some (aluSignals op))
    (hout : out = alu op (rfRdata1Port opc s) (rfRdata2Port opc s)) :
    commitEdge opc s =
      (((s.writeReg (rfWaddrPort opc s) out.result).setFlags (flagsOf out)).setPc s.npc).retire
        s.fetch := by
  subst hout
  simp [commitEdge, hc, rfWePort, dmemWePort, gated, aluPort, rfWdataPort, nextPcPort, aluSignals,
    idleSignals, State.retire, State.setPc, State.setFlags]

/-- The rows that write a register and no memory word, and set no flags. -/
theorem commitEdge_of_regWrite (hc : ctrlPort opc s = some c) (hreg : c.regWrite = true)
    (hmem : c.memWrite = false) (halu : c.aluOp = none) (hhalt : c.halt = false) :
    commitEdge opc s =
      ((s.writeReg (rfWaddrPort opc s) (rfWdataPort opc s)).setPc (nextPcPort opc s c)).retire
        s.fetch := by
  simp [commitEdge, hc, rfWePort, dmemWePort, gated, aluPort, hreg, hmem, halu, hhalt, State.retire,
    State.setPc]

/-- The rows that write pc alone. -/
theorem commitEdge_of_pcSrc (hc : ctrlPort opc s = some c) (hreg : c.regWrite = false)
    (hmem : c.memWrite = false) (halu : c.aluOp = none) (hhalt : c.halt = false) :
    commitEdge opc s = (s.setPc (nextPcPort opc s c)).retire s.fetch := by
  simp [commitEdge, hc, rfWePort, dmemWePort, gated, aluPort, hreg, hmem, halu, hhalt, State.retire,
    State.setPc]

/-- The row of SW. -/
theorem commitEdge_of_memWrite (hc : ctrlPort opc s = some c) (hreg : c.regWrite = false)
    (hmem : c.memWrite = true) (halu : c.aluOp = none) (hhalt : c.halt = false) :
    commitEdge opc s =
      ((s.writeMem (dmemAddrPort s) (dmemWdataPort s)).setPc (nextPcPort opc s c)).retire
        s.fetch := by
  simp [commitEdge, hc, rfWePort, dmemWePort, gated, aluPort, hreg, hmem, halu, hhalt, State.retire,
    State.setPc, State.writeMem]

/-- The row of HALT. -/
theorem commitEdge_of_haltSignals (hc : ctrlPort opc s = some haltSignals) :
    commitEdge opc s = (s.setMode .halted).retire s.fetch := by
  simp [commitEdge, hc, rfWePort, dmemWePort, gated, aluPort, nextPcPort, haltSignals, idleSignals,
    State.retire, State.setMode]

end Rows

/-! ## The edge and the step (R251, R263) -/

/-- `rst` wins over `step_en` (log 11). -/
theorem clockEdge_rst (opc : OpcodeMap) (stepEn : Bool) (s : State) :
    clockEdge opc true stepEn s = State.reset := rfl

theorem clockEdge_disabled (opc : OpcodeMap) (s : State) : clockEdge opc false false s = s := rfl

theorem clockEdge_running (opc : OpcodeMap) (s : State) (hm : s.mode = .running) :
    clockEdge opc false true s = commitEdge opc s := by
  simp [clockEdge, hm]

theorem clockEdge_stopped (opc : OpcodeMap) (s : State) (hm : s.mode ≠ .running) :
    clockEdge opc false true s = s := by
  simp [clockEdge, hm]

/-- The edge on a decoded word commits what the instruction's own rule leaves, retired: each
instruction's signals select its operands, its result and its next pc. -/
theorem commitEdge_of_decodeWith (opc : OpcodeMap) (s u : State) (i : Instr)
    (hd : decodeWith opc s.fetch = some i) (hu : exec i s = .next u) :
    commitEdge opc s = u.retire s.fetch := by
  have hc := ctrlPort_of_decodeWith hd
  cases i using Instr.aluCases with
  | halt => rw [execHalt_next s u hu, commitEdge_of_haltSignals hc]
  | alu op ra rb rc =>
    obtain ⟨rfl, rfl, rfl⟩ := aluInstr_fields_of_decodeWith opc s.fetch op ra rb rc hd
    have hr := format_aluInstr op (raField s.fetch) (rbField s.fetch) (rcField s.fetch)
    rw [signalsOf_aluInstr] at hc
    rw [exec_aluInstr_next op _ _ _ s u hu, commitEdge_of_aluSignals hc rfl,
      rfWaddrPort_of_decodeWith hd, if_neg (opcode_aluInstr_ne_jal op _ _ _),
      rfRdata1Port_of_decodeWith hd, if_pos hr, rfRdata2Port_of_format_r hd hr]
  | loadh ra imm =>
    obtain ⟨rfl, rfl⟩ := Instr.loadh.inj (eq_fieldsOf_of_decodeWith opc s.fetch _ .loadh hd rfl)
    rw [execLoadh_next _ _ s u hu, commitEdge_of_regWrite hc rfl rfl rfl rfl,
      nextPcPort_of_inc rfl, rfWaddrPort_of_decodeWith hd, rfWdataPort_of_aluOp_none hd rfl,
      rfRdata1Port_of_decodeWith hd]
    rfl
  | loadl ra imm =>
    obtain ⟨rfl, rfl⟩ := Instr.loadl.inj (eq_fieldsOf_of_decodeWith opc s.fetch _ .loadl hd rfl)
    rw [execLoadl_next _ _ s u hu, commitEdge_of_regWrite hc rfl rfl rfl rfl,
      nextPcPort_of_inc rfl, rfWaddrPort_of_decodeWith hd, rfWdataPort_of_aluOp_none hd rfl,
      rfRdata1Port_of_decodeWith hd]
    rfl
  | lw ra imm =>
    obtain ⟨rfl, rfl⟩ := Instr.lw.inj (eq_fieldsOf_of_decodeWith opc s.fetch _ .lw hd rfl)
    rw [execLw_next _ _ s u hu, commitEdge_of_regWrite hc rfl rfl rfl rfl, nextPcPort_of_inc rfl,
      rfWaddrPort_of_decodeWith hd, rfWdataPort_of_aluOp_none hd rfl]
    rfl
  | sw ra imm =>
    obtain ⟨rfl, rfl⟩ := Instr.sw.inj (eq_fieldsOf_of_decodeWith opc s.fetch _ .sw hd rfl)
    rw [execSw_next _ _ s u hu, commitEdge_of_memWrite hc rfl rfl rfl rfl, nextPcPort_of_inc rfl]
    rfl
  | jal address =>
    obtain rfl := Instr.jal.inj (eq_fieldsOf_of_decodeWith opc s.fetch _ .jal hd rfl)
    rw [execJal_next _ s u hu, commitEdge_of_regWrite hc rfl rfl rfl rfl, nextPcPort_of_jump rfl,
      jumpTargetPort_of_decodeWith hd, rfWaddrPort_of_decodeWith hd, rfWdataPort_of_aluOp_none hd rfl]
    rfl
  | jr rc =>
    obtain rfl := Instr.jr.inj (eq_fieldsOf_of_decodeWith opc s.fetch _ .jr hd rfl)
    rw [execJr_next _ s u hu, commitEdge_of_pcSrc hc rfl rfl rfl rfl, nextPcPort_of_jump rfl,
      jumpTargetPort_of_decodeWith hd, rfRdata1Port_of_decodeWith hd]
    rfl
  | j address =>
    obtain rfl := Instr.j.inj (eq_fieldsOf_of_decodeWith opc s.fetch _ .j hd rfl)
    rw [execJ_next _ s u hu, commitEdge_of_pcSrc hc rfl rfl rfl rfl, nextPcPort_of_jump rfl,
      jumpTargetPort_of_decodeWith hd]
    rfl
  | jeq ra rb offset =>
    obtain ⟨rfl, rfl, rfl⟩ := Instr.jeq.inj (eq_fieldsOf_of_decodeWith opc s.fetch _ .jeq hd rfl)
    rw [execJeq_next _ _ _ s u hu, branchIf_eq, commitEdge_of_pcSrc hc rfl rfl rfl rfl,
      nextPcPort_of_branch rfl, takenPort_of_decodeWith hd, rfRdata1Port_of_decodeWith hd,
      rfRdata2Port_of_format_b hd rfl]
    rfl
  | jne ra rb offset =>
    obtain ⟨rfl, rfl, rfl⟩ := Instr.jne.inj (eq_fieldsOf_of_decodeWith opc s.fetch _ .jne hd rfl)
    rw [execJne_next _ _ _ s u hu, branchIf_eq, commitEdge_of_pcSrc hc rfl rfl rfl rfl,
      nextPcPort_of_branch rfl, takenPort_of_decodeWith hd, rfRdata1Port_of_decodeWith hd,
      rfRdata2Port_of_format_b hd rfl]
    rfl

/-- Settles O59: outside mode running both hold, a rejected word has no signals and takes the fault in
both, and a decoded word's edge commits what the step retires. -/
theorem clockEdgeIsOneStep : Obligations.ClockEdgeIsOneStep := by
  intro opc s
  by_cases hm : s.mode = .running
  · rw [clockEdge_running opc s hm]
    cases hd : decodeWith opc s.fetch with
    | none => rw [stepWith_faults opc s hm hd, commitEdge_of_rejected hd]
    | some i =>
      obtain ⟨u, hu⟩ := exec_total i s
      rw [stepWith_runs opc s u i hm hd hu, commitEdge_of_decodeWith opc s u i hd hu]
  · rw [clockEdge_stopped opc s hm, stepWith_stuck opc s hm]

/-- Settles O60, by the two cases of the edge that commit no step. -/
theorem clockEdgeResetsOrHolds : Obligations.ClockEdgeResetsOrHolds :=
  fun opc stepEn s => ⟨clockEdge_rst opc stepEn s, clockEdge_disabled opc s, rfl⟩

end Machine
end Sys2Proof
end
